-- ==== Sys2Proof/Word.lean ====
section
/-! DEFINITION. The word types of the machine (spec R8, R10, R12). -/

namespace Sys2Proof

/-- The 8-bit value: a memory byte, a general register, a timer (R8 `REG_WIDTH`, `TIMER_WIDTH`). -/
abbrev Byte := BitVec 8

/-- The 16-bit value: an opcode, I, PC, a stack frame (R8 `I_WIDTH`, `PC_WIDTH`, `STACK_WIDTH`). -/
abbrev Word := BitVec 16

/-- The 12-bit address field `nnn` (R71). -/
abbrev Addr12 := BitVec 12

/-- The number of a general register, V0 to VF (R22). -/
abbrev Reg := Fin 16

end Sys2Proof
end

