-- ==== Sys2Proof/Syntax.lean ====
section
/-! DEFINITION. The instructions: one constructor per row of spec/opcode_table.json, in the table's order (spec R74). -/

namespace Sys2Proof

/-- The 35 instructions of the opcode map (R74). `x` and `y` are register numbers, `nn` an 8-bit immediate,
`nnn` a 12-bit address, `n` a sprite height (R71, R72). -/
inductive Instr where
  /-- 00E0 `CLS` (R161). -/
  | cls
  /-- 00EE `RET` (R102). -/
  | ret
  /-- 1nnn `JP nnn` (R103). -/
  | jp (nnn : Addr12)
  /-- 2nnn `CALL nnn` (R104). -/
  | call (nnn : Addr12)
  /-- 3xnn `SE Vx, nn` (R105). -/
  | seImm (x : Reg) (nn : Byte)
  /-- 4xnn `SNE Vx, nn` (R106). -/
  | sneImm (x : Reg) (nn : Byte)
  /-- 5xy0 `SE Vx, Vy` (R107). -/
  | seReg (x y : Reg)
  /-- 6xnn `LD Vx, nn` (R121). -/
  | ldImm (x : Reg) (nn : Byte)
  /-- 7xnn `ADD Vx, nn` (R122). -/
  | addImm (x : Reg) (nn : Byte)
  /-- 8xy0 `LD Vx, Vy` (R123). -/
  | ldReg (x y : Reg)
  /-- 8xy1 `OR Vx, Vy` (R124). -/
  | orReg (x y : Reg)
  /-- 8xy2 `AND Vx, Vy` (R125). -/
  | andReg (x y : Reg)
  /-- 8xy3 `XOR Vx, Vy` (R126). -/
  | xorReg (x y : Reg)
  /-- 8xy4 `ADD Vx, Vy` (R127). -/
  | addReg (x y : Reg)
  /-- 8xy5 `SUB Vx, Vy` (R128). -/
  | subReg (x y : Reg)
  /-- 8xy6 `SHR Vx` (R129). The field `y` is encoded and not read. -/
  | shr (x y : Reg)
  /-- 8xy7 `SUBN Vx, Vy` (R130). -/
  | subnReg (x y : Reg)
  /-- 8xyE `SHL Vx` (R131). The field `y` is encoded and not read. -/
  | shl (x y : Reg)
  /-- 9xy0 `SNE Vx, Vy` (R108). -/
  | sneReg (x y : Reg)
  /-- Annn `LD I, nnn` (R140). -/
  | ldI (nnn : Addr12)
  /-- Bnnn `JP V0, nnn` (R109). -/
  | jpV0 (nnn : Addr12)
  /-- Cxnn `RND Vx, nn` (R132). -/
  | rnd (x : Reg) (nn : Byte)
  /-- Dxyn `DRW Vx, Vy, n` (R162). -/
  | drw (x y : Reg) (n : BitVec 4)
  /-- Ex9E `SKP Vx` (R171). -/
  | skp (x : Reg)
  /-- ExA1 `SKNP Vx` (R172). -/
  | sknp (x : Reg)
  /-- Fx07 `LD Vx, DT` (R173). -/
  | ldVxDt (x : Reg)
  /-- Fx0A `LD Vx, K` (R174). -/
  | ldVxK (x : Reg)
  /-- Fx15 `LD DT, Vx` (R175). -/
  | ldDtVx (x : Reg)
  /-- Fx18 `LD ST, Vx` (R176). -/
  | ldStVx (x : Reg)
  /-- Fx1E `ADD I, Vx` (R141). -/
  | addI (x : Reg)
  /-- Fx29 `LD F, Vx` (R142). -/
  | ldF (x : Reg)
  /-- Fx33 `LD B, Vx` (R143). -/
  | ldB (x : Reg)
  /-- Fx55 `LD [I], Vx` (R144): stores V0 through Vx. -/
  | storeRegs (x : Reg)
  /-- Fx65 `LD Vx, [I]` (R145): loads V0 through Vx. -/
  | loadRegs (x : Reg)
  /-- 0nnn `SYS nnn` (R94): the family-0 words other than 00E0, 00EE and the AMB0 band, a no-op. -/
  | sys (nnn : Addr12)
  deriving DecidableEq, Repr

end Sys2Proof
end

