-- ==== Sys2Proof/Config.lean ====
section
/-! DEFINITION. The parameter types and the free values: what the spec leaves open and nothing in Lean can evaluate. -/

namespace Sys2Proof

/-- The parameter `AMBIGUOUS_DECODE` (R8, R75): how the words on which the source's table and prose disagree are read. -/
inductive AmbiguousDecode where
  /-- The default: the core halts, refused. -/
  | refuse
  /-- The word is an unrecognised no-op. -/
  | table
  /-- The word is the instruction that the prose's dispatch selects. -/
  | prose
  deriving DecidableEq, Repr

/-- FREE VALUE (log 3). The level of each of the 16 keys at the n-th step boundary, true = down (R170): an input of the
core that the host may change freely between steps. -/
opaque Config.keyLevels : Nat → Vector Bool 16

/-- FREE VALUE (log 4). The random byte drawn at the n-th step boundary, any byte under no law (R9, R132). -/
opaque Config.randomByte : Nat → Byte

/-- FREE VALUE (log 5). After a tick that reaches DT at boundary n: how many boundaries pass without one before the next.
Every value is finite, so ticks never cease (R178), and their times are otherwise free (R177). -/
opaque Config.delayTickGap : Nat → Nat

/-- FREE VALUE (log 5). The same for ST; the two timers are independent (R31, R177). -/
opaque Config.soundTickGap : Nat → Nat

/-- FREE VALUE (log 12). The parameter `COST`: the duration in seconds an instruction reports (R8, R96). -/
opaque Config.cost : Instr → Rat

/-- FREE VALUE (log 12). The host's fixed-hertz override, as the one cost every instruction then reports; none when it is
not configured (R96, R209, R231). -/
opaque Config.fixedCost : Option Rat

end Sys2Proof
end

