-- ==== Sys2Proof/WellFormed.lean ====
section
/-! DEFINITION. Which instruction terms stand for a word of their own row (spec R74, R75). -/

namespace Sys2Proof

/-- The low byte of a family-0 word that the `SYS` row does not cover: E0 and EE belong to 00E0, 00EE and the AMB0
band (R74, R75). -/
def sysLowByteTaken (nnn : Addr12) : Bool :=
  nnn.extractLsb' 0 8 == 0xE0#8 || nnn.extractLsb' 0 8 == 0xEE#8

/-- A `SYS nnn` is well formed when its word is one of the row's own (R74: lowest priority in family 0). Every other
operand is of a type that holds exactly the field's values, so nothing is left to check. -/
def Instr.wf : Instr → Bool
  | .sys nnn => !sysLowByteTaken nnn
  | .cls | .ret => true
  | .jp _ | .call _ | .ldI _ | .jpV0 _ => true
  | .seImm _ _ | .sneImm _ _ | .ldImm _ _ | .addImm _ _ | .rnd _ _ => true
  | .seReg _ _ | .sneReg _ _ | .ldReg _ _ | .orReg _ _ | .andReg _ _ | .xorReg _ _ => true
  | .addReg _ _ | .subReg _ _ | .subnReg _ _ | .shr _ _ | .shl _ _ => true
  | .drw _ _ _ => true
  | .skp _ | .sknp _ | .ldVxDt _ | .ldVxK _ | .ldDtVx _ | .ldStVx _ => true
  | .addI _ | .ldF _ | .ldB _ | .storeRegs _ | .loadRegs _ => true

end Sys2Proof
end

