-- ==== Sys2Proof/Decode.lean ====
section
/-! DEFINITION. The decoder, a total function from any word (spec R70-R78), then the encoder written from the same
formats. -/

namespace Sys2Proof

/-- The value this hardware takes for `AMBIGUOUS_DECODE`: the default of R8 and R75 (log 9). -/
def ambiguousReading : AmbiguousDecode := .refuse

/-- The three groups of words on which the source's table and prose disagree (R75). -/
inductive AmbBand where
  /-- `0kE0` and `0kEE` with k ≠ 0. -/
  | amb0
  /-- `5xyN` with N ≠ 0. -/
  | amb5
  /-- `9xyN` with N ≠ 0. -/
  | amb9
  deriving DecidableEq, Repr

/-- What a word decodes to (R73). Every word has exactly one outcome. -/
inductive Decoded where
  /-- An instruction of the opcode map. -/
  | instr (i : Instr)
  /-- An unrecognised word, which executes as a no-op (R76, R94). -/
  | unrecognised
  /-- A word of an ambiguous band that the reading `refuse` gives no meaning (R75, R195). -/
  | ambiguous (band : AmbBand)
  deriving DecidableEq, Repr

/-! ### Fields (R11, R71) -/

/-- The family: the top nibble, `op[15:12]`. -/
def famOf (op : Word) : BitVec 4 := op.extractLsb' 12 4

/-- The register number `x`, `op[11:8]`. -/
def xOf (op : Word) : Reg := (op.extractLsb' 8 4).toFin

/-- The register number `y`, `op[7:4]`. -/
def yOf (op : Word) : Reg := (op.extractLsb' 4 4).toFin

/-- The low nibble `n`, `op[3:0]`. -/
def nOf (op : Word) : BitVec 4 := op.extractLsb' 0 4

/-- The low byte `nn`, `op[7:0]`. -/
def nnOf (op : Word) : Byte := op.extractLsb' 0 8

/-- The address `nnn`, `op[11:0]`. -/
def nnnOf (op : Word) : Addr12 := op.extractLsb' 0 12

/-- The opcode made of two consecutive bytes, big-endian: the byte at the lower address is the high byte (R54). -/
def wordOfBytes (hi lo : Byte) : Word := hi ++ lo

/-! ### Decoding (R73) -/

/-- A word of band `b`, whose instruction under the prose reading is `i` (R75). -/
def readAmbiguous (r : AmbiguousDecode) (b : AmbBand) (i : Instr) : Decoded :=
  match r with
  | .refuse => .ambiguous b
  | .table => .unrecognised
  | .prose => .instr i

/-- Family 0: 00E0, 00EE, the AMB0 band, and `0nnn` for the rest (R73, R76). -/
def decodeFam0 (r : AmbiguousDecode) (op : Word) : Decoded :=
  if op = 0x00E0#16 then .instr .cls
  else if op = 0x00EE#16 then .instr .ret
  else if nnOf op = 0xE0#8 then readAmbiguous r .amb0 .cls
  else if nnOf op = 0xEE#8 then readAmbiguous r .amb0 .ret
  else .instr (.sys (nnnOf op))

/-- Family 8: dispatch on the low nibble (R73). -/
def decodeFam8 (op : Word) : Decoded :=
  if nOf op = 0x0#4 then .instr (.ldReg (xOf op) (yOf op))
  else if nOf op = 0x1#4 then .instr (.orReg (xOf op) (yOf op))
  else if nOf op = 0x2#4 then .instr (.andReg (xOf op) (yOf op))
  else if nOf op = 0x3#4 then .instr (.xorReg (xOf op) (yOf op))
  else if nOf op = 0x4#4 then .instr (.addReg (xOf op) (yOf op))
  else if nOf op = 0x5#4 then .instr (.subReg (xOf op) (yOf op))
  else if nOf op = 0x6#4 then .instr (.shr (xOf op) (yOf op))
  else if nOf op = 0x7#4 then .instr (.subnReg (xOf op) (yOf op))
  else if nOf op = 0xE#4 then .instr (.shl (xOf op) (yOf op))
  else .unrecognised

/-- Family E: dispatch on the low byte (R73). -/
def decodeFamE (op : Word) : Decoded :=
  if nnOf op = 0x9E#8 then .instr (.skp (xOf op))
  else if nnOf op = 0xA1#8 then .instr (.sknp (xOf op))
  else .unrecognised

/-- Family F: dispatch on the low byte (R73). -/
def decodeFamF (op : Word) : Decoded :=
  if nnOf op = 0x07#8 then .instr (.ldVxDt (xOf op))
  else if nnOf op = 0x0A#8 then .instr (.ldVxK (xOf op))
  else if nnOf op = 0x15#8 then .instr (.ldDtVx (xOf op))
  else if nnOf op = 0x18#8 then .instr (.ldStVx (xOf op))
  else if nnOf op = 0x1E#8 then .instr (.addI (xOf op))
  else if nnOf op = 0x29#8 then .instr (.ldF (xOf op))
  else if nnOf op = 0x33#8 then .instr (.ldB (xOf op))
  else if nnOf op = 0x55#8 then .instr (.storeRegs (xOf op))
  else if nnOf op = 0x65#8 then .instr (.loadRegs (xOf op))
  else .unrecognised

/-- The decoder of R73 under the reading `r` of the ambiguous bands (R75). It reads only the word (R78). -/
def decodeWord (r : AmbiguousDecode) (op : Word) : Decoded :=
  if famOf op = 0x0#4 then decodeFam0 r op
  else if famOf op = 0x1#4 then .instr (.jp (nnnOf op))
  else if famOf op = 0x2#4 then .instr (.call (nnnOf op))
  else if famOf op = 0x3#4 then .instr (.seImm (xOf op) (nnOf op))
  else if famOf op = 0x4#4 then .instr (.sneImm (xOf op) (nnOf op))
  else if famOf op = 0x5#4 then
    if nOf op = 0#4 then .instr (.seReg (xOf op) (yOf op))
    else readAmbiguous r .amb5 (.seReg (xOf op) (yOf op))
  else if famOf op = 0x6#4 then .instr (.ldImm (xOf op) (nnOf op))
  else if famOf op = 0x7#4 then .instr (.addImm (xOf op) (nnOf op))
  else if famOf op = 0x8#4 then decodeFam8 op
  else if famOf op = 0x9#4 then
    if nOf op = 0#4 then .instr (.sneReg (xOf op) (yOf op))
    else readAmbiguous r .amb9 (.sneReg (xOf op) (yOf op))
  else if famOf op = 0xA#4 then .instr (.ldI (nnnOf op))
  else if famOf op = 0xB#4 then .instr (.jpV0 (nnnOf op))
  else if famOf op = 0xC#4 then .instr (.rnd (xOf op) (nnOf op))
  else if famOf op = 0xD#4 then .instr (.drw (xOf op) (yOf op) (nOf op))
  else if famOf op = 0xE#4 then decodeFamE op
  else decodeFamF op

/-- Decoding a sequence of bytes: the first two are the instruction (R70), the rest is left. `none` names the one
rejection: fewer than two bytes hold no instruction. -/
def decodeBytes (r : AmbiguousDecode) : List Byte → Option (Decoded × List Byte)
  | hi :: lo :: rest => some (decodeWord r (wordOfBytes hi lo), rest)
  | [_] => none
  | [] => none

/-- The instruction the decoder reads from the word `w`, numbered as spec/opcode_table.json numbers it (bit 0 the least
significant bit of the word), its bits above `nbits` zero. The word is laid out big-endian (R54) and decoded. -/
def decodeTableWord (nbits w : Nat) : Option Instr :=
  let op : Word := BitVec.ofNat 16 (w % 2 ^ nbits)
  match decodeBytes ambiguousReading [op.extractLsb' 8 8, op.extractLsb' 0 8] with
  | some (.instr i, _) => some i
  | some (.unrecognised, _) => none
  | some (.ambiguous _, _) => none
  | none => none

/-! ### Encoding (R71, R74) -/

/-- The 4-bit field that names a register. -/
def regField (x : Reg) : BitVec 4 := BitVec.ofFin x

/-- The format `fam | nnn`. -/
def encAddr (fam : BitVec 4) (nnn : Addr12) : Word := fam ++ nnn

/-- The format `fam | x | nn`. -/
def encImm (fam : BitVec 4) (x : Reg) (nn : Byte) : Word := fam ++ (regField x ++ nn)

/-- The format `fam | x | y | n`. -/
def encReg (fam : BitVec 4) (x y : Reg) (n : BitVec 4) : Word := fam ++ (regField x ++ (regField y ++ n))

/-- The word of an instruction, from its row of the opcode map (R74). -/
def encode : Instr → Word
  | .cls => 0x00E0#16
  | .ret => 0x00EE#16
  | .jp nnn => encAddr 0x1#4 nnn
  | .call nnn => encAddr 0x2#4 nnn
  | .seImm x nn => encImm 0x3#4 x nn
  | .sneImm x nn => encImm 0x4#4 x nn
  | .seReg x y => encReg 0x5#4 x y 0x0#4
  | .ldImm x nn => encImm 0x6#4 x nn
  | .addImm x nn => encImm 0x7#4 x nn
  | .ldReg x y => encReg 0x8#4 x y 0x0#4
  | .orReg x y => encReg 0x8#4 x y 0x1#4
  | .andReg x y => encReg 0x8#4 x y 0x2#4
  | .xorReg x y => encReg 0x8#4 x y 0x3#4
  | .addReg x y => encReg 0x8#4 x y 0x4#4
  | .subReg x y => encReg 0x8#4 x y 0x5#4
  | .shr x y => encReg 0x8#4 x y 0x6#4
  | .subnReg x y => encReg 0x8#4 x y 0x7#4
  | .shl x y => encReg 0x8#4 x y 0xE#4
  | .sneReg x y => encReg 0x9#4 x y 0x0#4
  | .ldI nnn => encAddr 0xA#4 nnn
  | .jpV0 nnn => encAddr 0xB#4 nnn
  | .rnd x nn => encImm 0xC#4 x nn
  | .drw x y n => encReg 0xD#4 x y n
  | .skp x => encImm 0xE#4 x 0x9E#8
  | .sknp x => encImm 0xE#4 x 0xA1#8
  | .ldVxDt x => encImm 0xF#4 x 0x07#8
  | .ldVxK x => encImm 0xF#4 x 0x0A#8
  | .ldDtVx x => encImm 0xF#4 x 0x15#8
  | .ldStVx x => encImm 0xF#4 x 0x18#8
  | .addI x => encImm 0xF#4 x 0x1E#8
  | .ldF x => encImm 0xF#4 x 0x29#8
  | .ldB x => encImm 0xF#4 x 0x33#8
  | .storeRegs x => encImm 0xF#4 x 0x55#8
  | .loadRegs x => encImm 0xF#4 x 0x65#8
  | .sys nnn => encAddr 0x0#4 nnn

/-- The two bytes of an instruction as memory holds them, the high byte first (R54). -/
def encodeBytes (i : Instr) : List Byte := [(encode i).extractLsb' 8 8, (encode i).extractLsb' 0 8]

/-! ### The rows of the opcode map (R74) -/

/-- The mask column of the instruction's row. -/
def rowMask : Instr → Word
  | .cls | .ret => 0xFFFF#16
  | .jp _ | .call _ | .ldI _ | .jpV0 _ | .sys _ => 0xF000#16
  | .seImm _ _ | .sneImm _ _ | .ldImm _ _ | .addImm _ _ | .rnd _ _ | .drw _ _ _ => 0xF000#16
  | .seReg _ _ | .sneReg _ _ | .ldReg _ _ | .orReg _ _ | .andReg _ _ | .xorReg _ _ => 0xF00F#16
  | .addReg _ _ | .subReg _ _ | .subnReg _ _ | .shr _ _ | .shl _ _ => 0xF00F#16
  | .skp _ | .sknp _ | .ldVxDt _ | .ldVxK _ | .ldDtVx _ | .ldStVx _ => 0xF0FF#16
  | .addI _ | .ldF _ | .ldB _ | .storeRegs _ | .loadRegs _ => 0xF0FF#16

/-- The match column of the instruction's row. -/
def rowMatch : Instr → Word
  | .cls => 0x00E0#16
  | .ret => 0x00EE#16
  | .jp _ => 0x1000#16
  | .call _ => 0x2000#16
  | .seImm _ _ => 0x3000#16
  | .sneImm _ _ => 0x4000#16
  | .seReg _ _ => 0x5000#16
  | .ldImm _ _ => 0x6000#16
  | .addImm _ _ => 0x7000#16
  | .ldReg _ _ => 0x8000#16
  | .orReg _ _ => 0x8001#16
  | .andReg _ _ => 0x8002#16
  | .xorReg _ _ => 0x8003#16
  | .addReg _ _ => 0x8004#16
  | .subReg _ _ => 0x8005#16
  | .shr _ _ => 0x8006#16
  | .subnReg _ _ => 0x8007#16
  | .shl _ _ => 0x800E#16
  | .sneReg _ _ => 0x9000#16
  | .ldI _ => 0xA000#16
  | .jpV0 _ => 0xB000#16
  | .rnd _ _ => 0xC000#16
  | .drw _ _ _ => 0xD000#16
  | .skp _ => 0xE09E#16
  | .sknp _ => 0xE0A1#16
  | .ldVxDt _ => 0xF007#16
  | .ldVxK _ => 0xF00A#16
  | .ldDtVx _ => 0xF015#16
  | .ldStVx _ => 0xF018#16
  | .addI _ => 0xF01E#16
  | .ldF _ => 0xF029#16
  | .ldB _ => 0xF033#16
  | .storeRegs _ => 0xF055#16
  | .loadRegs _ => 0xF065#16
  | .sys _ => 0x0000#16

end Sys2Proof
end

