-- ==== Sys2Proof/Machine/Flags.lean ====
section
/-! DEFINITION. The 8-bit results and the flag values of the ALU (spec R120). The one flag is VF (R27), which holds the
byte 0x01 or 0x00. Results are computed on naturals and narrowed at the end (R12). -/

namespace Sys2Proof.Machine

/-- `trunc_8` (R12). -/
def trunc8 (n : Nat) : Byte := BitVec.ofNat 8 n

/-- `trunc_16` (R12). -/
def trunc16 (n : Nat) : Word := BitVec.ofNat 16 n

/-- The byte a flag is written as. -/
def flagByte (b : Bool) : Byte := if b then 0x01#8 else 0x00#8

/-- The exact sum of two bytes, 0 to 510 (R127). -/
def exactSum (a b : Byte) : Nat := a.toNat + b.toNat

/-- The carry of an addition: the sum is over 255 (R127). -/
def carryFlag (sum : Nat) : Byte := flagByte (decide (255 < sum))

/-- `trunc_8(a + 256 - b)`, the wrapping difference (R128, R130). -/
def sub8 (a b : Byte) : Byte := trunc8 (a.toNat + 256 - b.toNat)

/-- No borrow, strictly: 1 iff `a > b` (R128, R130, 90_conflicts C9). -/
def noBorrowFlag (a b : Byte) : Byte := flagByte (decide (b.toNat < a.toNat))

/-- The bit a right shift moves out, `a & 0x01` (R129). -/
def shrFlag (a : Byte) : Byte := a &&& 0x01#8

/-- `a >> 1` (R129). -/
def shr8 (a : Byte) : Byte := a >>> 1

/-- The bit a left shift moves out, `a >> 7` (R131). -/
def shlFlag (a : Byte) : Byte := a >>> 7

/-- `trunc_8(a << 1)` (R131). -/
def shl8 (a : Byte) : Byte := a <<< 1

end Sys2Proof.Machine
end

