-- ==== Sys2Proof/Machine/State.lean ====
section
/-! DEFINITION. The state of the machine as plain data, the reasons it stops, and the state after reset (spec R21, R34,
R38, R190). -/

namespace Sys2Proof.Machine

/-- The fatal errors of a run (R190), the kind that `status` records. Taking one is a NEXT state (R198, log 1): the
meanings below write it into `status`, and no step of this model answers `Outcome.fault`. -/
inductive Fault where
  /-- `CALL` with 16 frames held (R191); raised by `execCall`. Safe: the spec states it. -/
  | stackOverflow
  /-- `RET` with no frame held (R192); raised by `execRet`. Safe: the spec states it. -/
  | stackUnderflow
  /-- An access at an address of 4096 or above (R193); raised by the fetch, `execDrw`, `execLdB`, `execStoreRegs` and
  `execLoadRegs`. Safe: the spec makes it a fault where the source might go on (R51). -/
  | memoryOutOfRange
  /-- A key index above 0x0F (R194); raised by `execSkp` and `execSknp`. Safe: as above. -/
  | keyIndexOutOfRange
  deriving DecidableEq, Repr

/-- The reasons for which the spec gives no meaning. -/
inductive Refusal where
  /-- An instruction with no meaning yet; answered by an arm of `exec` alone. Safe: the run stops. No arm uses it. -/
  | notModelled (mnemonic : String)
  /-- A word of an ambiguous band under the reading `refuse` (R195); recorded in `status` by the cycle, which is a NEXT
  state (log 1). Safe: the run halts. -/
  | ambiguousEncoding
  /-- A ROM of more than 3584 bytes (R221); answered by `State.loadWith`, which then builds no state. Safe. -/
  | romTooLarge
  deriving DecidableEq, Repr

/-- The run status (R34). `addr` is the instruction's address and `op` its opcode, absent for a fetch fault. -/
inductive Status where
  | running
  | faulted (kind : Fault) (addr : Word) (op : Option Word)
  | refused (reason : Refusal) (addr op : Word)
  deriving DecidableEq, Repr

/-- The state of the core (R21), then the model's own fields that carry the inputs of a step. -/
structure State where
  /-- `MEM`: the bytes that differ from the contents after reset, in canonical form (R50; log 10). -/
  mem : List Host.Cell
  /-- `V0` to `VF` (R22). -/
  v : Vector Byte 16
  /-- The index register `I` (R28). -/
  i : Word
  /-- The program counter (R25). -/
  pc : Word
  /-- The number of frames held, 0 to 16 (R29). -/
  sp : Fin 17
  /-- The return-address stack (R30). -/
  stack : Vector Word 16
  /-- The delay timer (R31). -/
  dt : Byte
  /-- The sound timer (R31). -/
  st : Byte
  /-- The framebuffer, 32 rows of 64 columns; true = on (R32). -/
  fb : Vector (Vector Bool 64) 32
  /-- The opcode latch (R33). -/
  opc : Word
  /-- The run status (R34). -/
  status : Status
  /-- The model's own (log 3): the key levels sampled for this step (R170). -/
  keys : Vector Bool 16
  /-- The model's own (log 4): the random byte drawn for this step (R132). -/
  rnd : Byte
  /-- The model's own (log 6): step boundaries passed, the argument of the free values. -/
  now : Nat
  /-- The model's own (log 5): boundaries left before the next tick that reaches DT. -/
  dtGap : Nat
  /-- The model's own (log 5): boundaries left before the next tick that reaches ST. -/
  stGap : Nat
  deriving DecidableEq, Repr

/-- The state after the load of a zero-length ROM (R38, R222; log 11): the font at its base, every other byte and
register zero, the screen clear, PC at 0x200 and the core running. The model's own fields start at the values of logs
3, 4 and 6, and no step reads them before it has overwritten or used them as those logs say. -/
def State.reset : State where
  mem := []
  v := Vector.replicate 16 0x00#8
  i := 0x0000#16
  pc := 0x0200#16
  sp := 0
  stack := Vector.replicate 16 0x0000#16
  dt := 0x00#8
  st := 0x00#8
  fb := Vector.replicate 32 (Vector.replicate 64 false)
  opc := 0x0000#16
  status := .running
  keys := Vector.replicate 16 false
  rnd := 0x00#8
  now := 0
  dtGap := 0
  stGap := 0

end Sys2Proof.Machine
end

