-- ==== Sys2Proof/Machine/Memory.lean ====
section
/-! DEFINITION. Memory as a list of (address, byte) pairs in one canonical form, over the contents after reset
(spec R38, R50; log 10). -/

namespace Sys2Proof.Machine

/-- What an address reads as when nothing is listed for it: its byte after the load of a zero-length ROM, the default
font from `fontBase` and 0x00 everywhere else (R38, R60). -/
def Memory.background (a : Nat) : Byte :=
  if a < fontBase then 0x00#8 else (fontLow ++ fontHigh).getD (a - fontBase) 0x00#8

/-- The byte at address `a`. -/
def Memory.read : List Host.Cell → Nat → Byte
  | [], a => Memory.background a
  | (b, w) :: rest, a => if a = b then w else Memory.read rest a

/-- Puts byte `v` for address `a` in front of `rest`, unless it is what the address reads as when unlisted. -/
def Memory.cons (a : Nat) (v : Byte) (rest : List Host.Cell) : List Host.Cell :=
  if v = Memory.background a then rest else (a, v) :: rest

/-- Writes byte `v` at address `a`, keeping the list canonical. -/
def Memory.write : List Host.Cell → Nat → Byte → List Host.Cell
  | [], a, v => Memory.cons a v []
  | (b, w) :: rest, a, v =>
    if a < b then Memory.cons a v ((b, w) :: rest)
    else if a = b then Memory.cons a v rest
    else (b, w) :: Memory.write rest a v

/-- Writes bytes at consecutive addresses from `a` up. -/
def Memory.writeAll : List Host.Cell → Nat → List Byte → List Host.Cell
  | m, _, [] => m
  | m, a, v :: vs => Memory.writeAll (Memory.write m a v) (a + 1) vs

/-- The canonical form from address `lo` up: addresses strictly rising and inside the address space, no entry equal to
what its address reads as when unlisted. -/
def Memory.wfFrom : Nat → List Host.Cell → Bool
  | _, [] => true
  | lo, (a, v) :: rest =>
    decide (lo ≤ a) && decide (a < memSize) && !decide (v = Memory.background a) && Memory.wfFrom (a + 1) rest

/-- The canonical form of memory. -/
def Memory.wf (m : List Host.Cell) : Bool := Memory.wfFrom 0 m

end Sys2Proof.Machine
end

