-- ==== Sys2Proof/Machine/Ops.lean ====
section
/-! DEFINITION. The named operations over registers, memory, stack, screen, timers and inputs, fault entry, and the
parts of the instruction cycle (spec R13, R14, R51, R52, R90, R91, R177, R198). -/

namespace Sys2Proof.Machine

/-- `for k in 0 .. n-1: s <- f k s`, in that order. -/
def forUpTo {α : Type} : Nat → (Nat → α → α) → α → α
  | 0, _, s => s
  | n + 1, f, s => f n (forUpTo n f s)

/-! ### Registers (R13, R22) -/

/-- `V[x]`. -/
def State.getV (s : State) (x : Reg) : Byte := s.v[x]

/-- `V[x] <- b`. No register is hardwired (R22). -/
def State.setV (s : State) (x : Reg) (b : Byte) : State := { s with v := s.v.set x b }

/-- The number of VF, the flag (R23). -/
abbrev vf : Reg := 15

/-- `I <- w`. -/
def State.setI (s : State) (w : Word) : State := { s with i := w }

/-- `PC <- w`. -/
def State.setPc (s : State) (w : Word) : State := { s with pc := w }

/-- `DT <- b`. -/
def State.setDt (s : State) (b : Byte) : State := { s with dt := b }

/-- `ST <- b`. -/
def State.setSt (s : State) (b : Byte) : State := { s with st := b }

/-- `skip`: `PC <- trunc_16(PC + 2)` (R14, R100). -/
def State.skip (s : State) : State := s.setPc (trunc16 (s.pc.toNat + 2))

/-- `skip` if `c` holds. -/
def State.skipIf (s : State) (c : Bool) : State := if c then s.skip else s

/-! ### Halting: fault entry and the refusal (R14, R195, R198)

There is no vector, no handler and no return (R198, R199): taking a fault is one write of `status`, and only a load
leaves it (R220). -/

/-- Halts the core with the status `h`, writing nothing else (R198). -/
def State.halt (s : State) (h : Status) : State := { s with status := h }

/-- `raise Fault(kind)` in the execute phase (R198). PC is the instruction's address + 2 and OPC its opcode (R93), so
the address recorded is PC - 2, exactly. -/
def State.raise (s : State) (kind : Fault) : State := s.halt (.faulted kind (s.pc - 2#16) (some s.opc))

/-- The fetch fault (R91): PC still holds the address, and no opcode is recorded. -/
def State.raiseFetch (s : State) : State := s.halt (.faulted .memoryOutOfRange s.pc none)

/-- `refuse(AmbiguousEncoding)` after the fetch and advance (R195). -/
def State.refuseWord (s : State) : State := s.halt (.refused .ambiguousEncoding (s.pc - 2#16) s.opc)

/-! ### Memory (R51, R52) -/

/-- `MemRead(a, 1)` (R51); `none` is its fault `MemoryOutOfRange`. -/
def State.memRead (s : State) (a : Nat) : Option Byte :=
  if memSize ≤ a then none else some (Memory.read s.mem a)

/-- `MemWrite(a, 1, b)` (R52); `none` is its fault `MemoryOutOfRange`. Every address below 4096 is writable. -/
def State.memWrite (s : State) (a : Nat) (b : Byte) : Option State :=
  if memSize ≤ a then none else some { s with mem := Memory.write s.mem a b }

/-- The byte at `a`, for an instruction that has checked its range (R193). -/
def State.peek (s : State) (a : Nat) : Byte := Memory.read s.mem a

/-- Writes a byte at `a`, for an instruction that has checked its range (R193); outside the address space there is
nothing to write (log 15). -/
def State.poke (s : State) (a : Nat) (b : Byte) : State := (s.memWrite a b).getD s

/-! ### The return-address stack (R29, R30) -/

/-- Pushes a frame: `SP <- SP + 1; stack[SP - 1] <- w`; `none` when 16 frames are held (R104). -/
def State.push (s : State) (w : Word) : Option State :=
  if h : s.sp.val < 16 then
    some { s with sp := ⟨s.sp.val + 1, by omega⟩, stack := s.stack.set s.sp.val w h }
  else none

/-- Pops a frame: `SP <- SP - 1`, and the value of `stack[SP]`, whose slot keeps it; `none` when no frame is held
(R102). -/
def State.pop (s : State) : Option (Word × State) :=
  if h : s.sp.val = 0 then none
  else some (s.stack[s.sp.val - 1]'(by omega), { s with sp := ⟨s.sp.val - 1, by omega⟩ })

/-! ### The framebuffer (R32, R160) -/

/-- `FB[c, r]`. -/
def State.pixel (s : State) (c : Fin 64) (r : Fin 32) : Bool := s.fb[r][c]

/-- `FB[c, r] <- b`. -/
def State.setPixel (s : State) (c : Fin 64) (r : Fin 32) (b : Bool) : State :=
  { s with fb := s.fb.set r (s.fb[r].set c b) }

/-- Every pixel off (R161). -/
def State.clearScreen (s : State) : State :=
  { s with fb := Vector.replicate 32 (Vector.replicate 64 false) }

/-- One set sprite bit at (c, r): a pixel that was on sets VF, and the pixel is inverted (R162). -/
def State.xorPixel (s : State) (c : Fin 64) (r : Fin 32) : State :=
  (if s.pixel c r then s.setV vf 0x01#8 else s).setPixel c r (!s.pixel c r)

/-- Column `b` of a sprite row, 0 the leftmost: bit `7 - b` (R10, R162). -/
def spriteBit (row : Byte) (b : Nat) : Bool := row.getLsbD (7 - b)

/-- One sprite row at row `r` of the screen, its columns from `x0`, each wrapping on its own (R162). -/
def State.drawRow (s : State) (x0 : Nat) (r : Fin 32) (row : Byte) : State :=
  forUpTo 8 (fun b s => if spriteBit row b then s.xorPixel (Fin.ofNat 64 (x0 + b)) r else s) s

/-- The `n` sprite rows whose bytes start at address `a`, drawn from origin (x0, y0) (R162). -/
def State.drawSprite (s : State) (a x0 y0 n : Nat) : State :=
  forUpTo n (fun r s => s.drawRow x0 (Fin.ofNat 32 (y0 + r)) (s.peek (a + r))) s

/-! ### Timers (R177) -/

/-- One timer under a tick: it goes down by one if the tick reaches it and it is not zero. -/
def countDown (t : Byte) (reached : Bool) : Byte :=
  if t = 0x00#8 then t else if reached then t - 1#8 else t

/-- `tick(d, s)` (R177): the step of the timer-countdown agent. -/
def State.tick (s : State) (d snd : Bool) : State :=
  { s with dt := countDown s.dt d, st := countDown s.st snd }

/-! ### The inputs of a step (R20, R132, R170, R177) -/

/-- The boundaries left before the next tick: one fewer, or after a tick the free gap `g`. -/
def nextGap (gap g : Nat) : Nat :=
  match gap with
  | 0 => g
  | n + 1 => n

/-- The boundary before a step (logs 2 to 5): the tick that falls there, if any, then the key levels
and the random byte that the step samples. A tick reaches a timer when its gap has run out. -/
def State.boundary (s : State) : State :=
  { s.tick (s.dtGap == 0) (s.stGap == 0) with
    keys := Config.keyLevels s.now
    rnd := Config.randomByte s.now
    dtGap := nextGap s.dtGap (Config.delayTickGap s.now)
    stGap := nextGap s.stGap (Config.soundTickGap s.now)
    now := s.now + 1 }

/-- The lowest key that is down (R174: "first match wins"). -/
def firstKey (keys : Vector Bool 16) : Option (Fin 16) := (List.finRange 16).find? (fun k => keys[k])

/-! ### Fetch and advance (R90, R91) -/

/-- The fetch: two bytes from PC, big-endian (R54, R90). The address of the second is exact (R53); `none` is the fetch
fault `MemoryOutOfRange` (R91). -/
def State.fetch (s : State) : Option Word :=
  match s.memRead s.pc.toNat, s.memRead (s.pc.toNat + 1) with
  | some hi, some lo => some (hi ++ lo)
  | some _, none => none
  | none, some _ => none
  | none, none => none

/-- The latch and the advance: `OPC <- op; PC <- trunc_16(PC + 2)` (R90). -/
def State.advance (s : State) (op : Word) : State :=
  { s with opc := op, pc := trunc16 (s.pc.toNat + 2) }

/-- Places the word `op` where the next fetch reads it, high byte first, and sets the core running, without which no
fetch happens (R95). -/
def State.placeWord (s : State) (op : Word) : State :=
  { (s.poke s.pc.toNat (op.extractLsb' 8 8)).poke (s.pc.toNat + 1) (op.extractLsb' 0 8) with status := .running }

end Sys2Proof.Machine
end

