-- ==== Sys2Proof/Machine/Operands.lean ====
section
/-! DEFINITION. The operand forms (spec R72, R101, R162, R171): how a field or a register becomes a value, an address,
a coordinate or a key. -/

namespace Sys2Proof.Machine

/-- `zext_16(nnn)`: a 12-bit address as a PC or I value (R72). -/
def addrOperand (nnn : Addr12) : Word := nnn.setWidth 16

/-- `trunc_16(zext_16(nnn) + V[0])`, the target of `JP V0, nnn` (R109). -/
def State.v0Target (s : State) (nnn : Addr12) : Word := trunc16 (nnn.toNat + (s.getV 0).toNat)

/-- `I + k`, exact (R53): the one addressing mode. -/
def State.effAddr (s : State) (k : Nat) : Nat := s.i.toNat + k

/-- `trunc_16(I + V[x])` (R141). -/
def State.indexSum (s : State) (x : Reg) : Word := trunc16 (s.i.toNat + (s.getV x).toNat)

/-- `FONT_BASE + 5 × V[x]`, with the whole of V[x] (R142). -/
def glyphAddr (b : Byte) : Word := trunc16 (fontBase + 5 * b.toNat)

/-- The hundreds digit (R143). -/
def hundreds (b : Byte) : Byte := trunc8 (b.toNat / 100)

/-- The tens digit (R143). -/
def tens (b : Byte) : Byte := trunc8 (b.toNat / 10 % 10)

/-- The ones digit (R143). -/
def ones (b : Byte) : Byte := trunc8 (b.toNat % 10)

/-- The origin column, `V[x] mod 64` (R162). -/
def originColumn (b : Byte) : Nat := b.toNat % 64

/-- The origin row, `V[y] mod 32` (R160, 90_conflicts C2). -/
def originRow (b : Byte) : Nat := b.toNat % 32

/-- Whether a byte names a key: 0x00 to 0x0F (R171). -/
def isKeyIndex (b : Byte) : Bool := decide (b.toNat ≤ 0x0F)

/-- The level of the key a byte names, once `isKeyIndex` holds (R170, R171). -/
def State.keyDown (s : State) (b : Byte) : Bool := s.keys[Fin.ofNat 16 b.toNat]

/-- The register that the k-th byte of a block transfer goes with (R144, R145). -/
def blockReg (k : Nat) : Reg := Fin.ofNat 16 k

end Sys2Proof.Machine
end

