-- ==== Sys2Proof/Machine/Alu.lean ====
section
/-! DEFINITION. Register and ALU operations (spec R120-R132). The flag is written first and the result last, and each
statement reads the registers as the one before left them (R15): this decides the result when an operand is VF. -/

namespace Sys2Proof.Machine

/-- `LD Vx, nn` (R121). -/
def execLdImm (x : Reg) (nn : Byte) (s : State) : Host.Outcome State Fault Refusal :=
  .next (s.setV x nn)

/-- `ADD Vx, nn` (R122): no flag. -/
def execAddImm (x : Reg) (nn : Byte) (s : State) : Host.Outcome State Fault Refusal :=
  .next (s.setV x (trunc8 (exactSum (s.getV x) nn)))

/-- `LD Vx, Vy` (R123). -/
def execLdReg (x y : Reg) (s : State) : Host.Outcome State Fault Refusal :=
  .next (s.setV x (s.getV y))

/-- `OR Vx, Vy` (R124): no flag. -/
def execOrReg (x y : Reg) (s : State) : Host.Outcome State Fault Refusal :=
  .next (s.setV x (s.getV x ||| s.getV y))

/-- `AND Vx, Vy` (R125): no flag. -/
def execAndReg (x y : Reg) (s : State) : Host.Outcome State Fault Refusal :=
  .next (s.setV x (s.getV x &&& s.getV y))

/-- `XOR Vx, Vy` (R126): no flag. -/
def execXorReg (x y : Reg) (s : State) : Host.Outcome State Fault Refusal :=
  .next (s.setV x (s.getV x ^^^ s.getV y))

/-- `ADD Vx, Vy` (R127): the sum is bound before VF is written. -/
def execAddReg (x y : Reg) (s : State) : Host.Outcome State Fault Refusal :=
  let sum := exactSum (s.getV x) (s.getV y)
  .next ((s.setV vf (carryFlag sum)).setV x (trunc8 sum))

/-- `SUB Vx, Vy` (R128): the difference reads V[x] and V[y] after VF is written. -/
def execSubReg (x y : Reg) (s : State) : Host.Outcome State Fault Refusal :=
  let s1 := s.setV vf (noBorrowFlag (s.getV x) (s.getV y))
  .next (s1.setV x (sub8 (s1.getV x) (s1.getV y)))

/-- `SHR Vx` (R129): V[y] is not read; the shift reads V[x] after VF is written. -/
def execShr (x _y : Reg) (s : State) : Host.Outcome State Fault Refusal :=
  let s1 := s.setV vf (shrFlag (s.getV x))
  .next (s1.setV x (shr8 (s1.getV x)))

/-- `SUBN Vx, Vy` (R130): V[y] minus V[x] into V[x], read after VF is written. -/
def execSubnReg (x y : Reg) (s : State) : Host.Outcome State Fault Refusal :=
  let s1 := s.setV vf (noBorrowFlag (s.getV y) (s.getV x))
  .next (s1.setV x (sub8 (s1.getV y) (s1.getV x)))

/-- `SHL Vx` (R131): V[y] is not read; the shift reads V[x] after VF is written. -/
def execShl (x _y : Reg) (s : State) : Host.Outcome State Fault Refusal :=
  let s1 := s.setV vf (shlFlag (s.getV x))
  .next (s1.setV x (shl8 (s1.getV x)))

/-- `RND Vx, nn` (R132): the byte drawn for this step, masked (log 4). -/
def execRnd (x : Reg) (nn : Byte) (s : State) : Host.Outcome State Fault Refusal :=
  .next (s.setV x (s.rnd &&& nn))

end Sys2Proof.Machine
end

