-- ==== Sys2Proof/Machine/Display.lean ====
section
/-! DEFINITION. The display (spec R160-R164). -/

namespace Sys2Proof.Machine

/-- `CLS` (R161). -/
def execCls (s : State) : Host.Outcome State Fault Refusal := .next s.clearScreen

/-- Whether a sprite of `n` rows from I lies inside memory: no row is read when n = 0 (R162). -/
def State.spriteInRange (s : State) (n : Nat) : Bool := n == 0 || decide (s.effAddr (n - 1) < memSize)

/-- `DRW Vx, Vy, n` (R162): the origin is read before VF is reset, and the range is checked before any write. -/
def execDrw (x y : Reg) (n : BitVec 4) (s : State) : Host.Outcome State Fault Refusal :=
  let x0 := originColumn (s.getV x)
  let y0 := originRow (s.getV y)
  .next (if s.spriteInRange n.toNat then (s.setV vf 0x00#8).drawSprite s.i.toNat x0 y0 n.toNat
    else s.raise .memoryOutOfRange)

end Sys2Proof.Machine
end

