-- ==== Sys2Proof/Machine/Index.lean ====
section
/-! DEFINITION. The index register and memory transfers (spec R140-R145). Each transfer checks its whole range before
its first write (R193), and none changes I. -/

namespace Sys2Proof.Machine

/-- `LD I, nnn` (R140). -/
def execLdI (nnn : Addr12) (s : State) : Host.Outcome State Fault Refusal :=
  .next (s.setI (addrOperand nnn))

/-- `ADD I, Vx` (R141): wraps at 16 bits, no flag. -/
def execAddI (x : Reg) (s : State) : Host.Outcome State Fault Refusal :=
  .next (s.setI (s.indexSum x))

/-- `LD F, Vx` (R142): the whole of V[x], not its low nibble. -/
def execLdF (x : Reg) (s : State) : Host.Outcome State Fault Refusal :=
  .next (s.setI (glyphAddr (s.getV x)))

/-- The three decimal digits of a byte stored from I up, hundreds first (R143). -/
def State.storeBcd (s : State) (b : Byte) : State :=
  ((s.poke (s.effAddr 0) (hundreds b)).poke (s.effAddr 1) (tens b)).poke (s.effAddr 2) (ones b)

/-- `LD B, Vx` (R143). -/
def execLdB (x : Reg) (s : State) : Host.Outcome State Fault Refusal :=
  .next (if memSize ≤ s.effAddr 2 then s.raise .memoryOutOfRange else s.storeBcd (s.getV x))

/-- The first `n` registers stored from I up (R144). -/
def State.storeBlock (s : State) (n : Nat) : State :=
  forUpTo n (fun k s => s.poke (s.effAddr k) (s.getV (blockReg k))) s

/-- `LD [I], Vx` (R144): V0 through Vx, x + 1 bytes (90_conflicts C1). -/
def execStoreRegs (x : Reg) (s : State) : Host.Outcome State Fault Refusal :=
  .next (if memSize ≤ s.effAddr x.val then s.raise .memoryOutOfRange else s.storeBlock (x.val + 1))

/-- The first `n` registers loaded from I up (R145). -/
def State.loadBlock (s : State) (n : Nat) : State :=
  forUpTo n (fun k s => s.setV (blockReg k) (s.peek (s.effAddr k))) s

/-- `LD Vx, [I]` (R145): V0 through Vx, x + 1 bytes (90_conflicts C1). -/
def execLoadRegs (x : Reg) (s : State) : Host.Outcome State Fault Refusal :=
  .next (if memSize ≤ s.effAddr x.val then s.raise .memoryOutOfRange else s.loadBlock (x.val + 1))

end Sys2Proof.Machine
end

