-- ==== Sys2Proof/Machine/Keypad.lean ====
section
/-! DEFINITION. Keypad and timer instructions (spec R170-R176). The key levels are those sampled for this step (log 3). -/

namespace Sys2Proof.Machine

/-- `SKP Vx` (R171). -/
def execSkp (x : Reg) (s : State) : Host.Outcome State Fault Refusal :=
  .next (if isKeyIndex (s.getV x) then s.skipIf (s.keyDown (s.getV x)) else s.raise .keyIndexOutOfRange)

/-- `SKNP Vx` (R172). -/
def execSknp (x : Reg) (s : State) : Host.Outcome State Fault Refusal :=
  .next (if isKeyIndex (s.getV x) then s.skipIf (!s.keyDown (s.getV x)) else s.raise .keyIndexOutOfRange)

/-- `LD Vx, DT` (R173). -/
def execLdVxDt (x : Reg) (s : State) : Host.Outcome State Fault Refusal :=
  .next (s.setV x s.dt)

/-- `LD Vx, K` (R174): the lowest key that is down, or PC back at this instruction. -/
def execLdVxK (x : Reg) (s : State) : Host.Outcome State Fault Refusal :=
  .next (match firstKey s.keys with
    | some k => s.setV x (trunc8 k.val)
    | none => s.setPc (s.pc - 2#16))

/-- `LD DT, Vx` (R175). -/
def execLdDtVx (x : Reg) (s : State) : Host.Outcome State Fault Refusal :=
  .next (s.setDt (s.getV x))

/-- `LD ST, Vx` (R176). -/
def execLdStVx (x : Reg) (s : State) : Host.Outcome State Fault Refusal :=
  .next (s.setSt (s.getV x))

end Sys2Proof.Machine
end

