-- ==== Sys2Proof/Machine/System.lean ====
section
/-! DEFINITION. The no-ops (spec R94): `SYS nnn` and the unrecognised words. -/

namespace Sys2Proof.Machine

/-- `SYS nnn` (R94): a no-op, its field ignored; PC keeps the value of the advance. -/
def execSys (_nnn : Addr12) (s : State) : Host.Outcome State Fault Refusal := .next s

/-- An unrecognised word (R76, R94): a no-op. -/
def execUnrecognised (s : State) : Host.Outcome State Fault Refusal := .next s

end Sys2Proof.Machine
end

