-- ==== Sys2Proof/Machine/Cycle.lean ====
section
/-! DEFINITION. The instruction cycle (spec R90-R95). -/

namespace Sys2Proof.Machine

/-- The execute phase of what was decoded (R93): the instruction's rule, the no-op, or the refusal. -/
def execDecoded (d : Decoded) (s : State) : Host.Outcome State Fault Refusal :=
  match d with
  | .instr i => exec i s
  | .unrecognised => execUnrecognised s
  | .ambiguous _ => .next s.refuseWord

/-- Fetch, advance, decode, execute (R90), under the reading `r` of the ambiguous bands. -/
def runInstruction (r : AmbiguousDecode) (s : State) : Host.Outcome State Fault Refusal :=
  match s.fetch with
  | none => .next s.raiseFetch
  | some op => execDecoded (decodeWord r op) (s.advance op)

/-- One step request under the reading `r`: a halted core does nothing (R95); a running one runs one instruction. -/
def stepRequest (r : AmbiguousDecode) (s : State) : Host.Outcome State Fault Refusal :=
  match s.status with
  | .running => runInstruction r s
  | .faulted _ _ _ => .next s
  | .refused _ _ _ => .next s

/-- One step under the reading `r`: the boundary (the tick that falls there and the sampled inputs), which a halted core
passes too (R177, log 2), then the step request. -/
def stepWith (r : AmbiguousDecode) (s : State) : Host.Outcome State Fault Refusal := stepRequest r s.boundary

end Sys2Proof.Machine
end

