-- ==== Sys2Proof/Machine/Step.lean ====
section
/-! DEFINITION. The step of the core (spec R90), and the placing of one word where it fetches. -/

namespace Sys2Proof.Machine

/-- One step: one instruction, under this hardware's value of `AMBIGUOUS_DECODE` (R8). -/
def step (s : State) : Host.Outcome State Fault Refusal := stepWith ambiguousReading s

/-- `s` with the word `w`, its bits above `nbits` zero, stored where `step` fetches its next instruction (log 11). -/
def State.withFetchWord (s : State) (nbits w : Nat) : State :=
  s.placeWord (BitVec.ofNat 16 (w % 2 ^ nbits))

end Sys2Proof.Machine
end

