-- ==== Sys2Proof/Machine/Load.lean ====
section
/-! DEFINITION. Initialisation (spec R220-R222): the only reset, and the only way out of a halted status. -/

namespace Sys2Proof.Machine

/-- The memory after `load`: the font at its base, the ROM from 0x200, zero everywhere else (R38, R220). The empty list
is the zeroed memory with the default font, whose 80 bytes `font` then replaces. -/
def loadedMemory (font : Vector Byte 80) (rom : List Byte) : List Host.Cell :=
  Memory.writeAll (Memory.writeAll [] fontBase font.toList) progBase rom

/-- `load(rom)` (R220) with the parameter `FONT` as given (R60): refused `RomTooLarge` when the ROM is over 3584 bytes,
and then no state is built (R221). It replaces the whole state of the core; the model's own fields, which carry the
environment's inputs, go on from `s` (log 13). -/
def State.loadWith (font : Vector Byte 80) (rom : List Byte) (s : State) : Except Refusal State :=
  if romMax < rom.length then .error .romTooLarge
  else .ok { State.reset with
    mem := loadedMemory font rom
    keys := s.keys, rnd := s.rnd, now := s.now, dtGap := s.dtGap, stGap := s.stGap }

/-- `load(rom)` with the default font (R220). -/
def State.load (rom : List Byte) (s : State) : Except Refusal State := State.loadWith defaultFont rom s

end Sys2Proof.Machine
end

