-- ==== Sys2Proof/Machine/Ports.lean ====
section
/-! DEFINITION. The output ports (spec R204-R210): what the host reads between steps. None of them is read by a step. -/

namespace Sys2Proof.Machine

/-- A pixel as the host reads it: 0xFF on, 0x00 off (R206). -/
def pixelByte (on : Bool) : Byte := if on then 0xFF#8 else 0x00#8

/-- Port `fb`: the 2048 pixel bytes, pixel (c, r) at index `r × 64 + c` (R206). -/
def State.fbPort (s : State) : List Byte := s.fb.toList.flatMap (fun row => row.toList.map pixelByte)

/-- Port `sound_on` (R207). -/
def State.soundOn (s : State) : Bool := s.st != 0x00#8

/-- The numeric code of a fault kind (R190). -/
def faultCode : Fault → Nat
  | .stackOverflow => 1
  | .stackUnderflow => 2
  | .memoryOutOfRange => 3
  | .keyIndexOutOfRange => 4

/-- The numeric code of port `status` (R190): none while the core runs; 5 for the refused encoding. A status never
records the other reasons of a refusal (Safety's `Status.legal`), and they have no code. -/
def Status.code : Status → Option Nat
  | .running => none
  | .faulted kind _ _ => some (faultCode kind)
  | .refused .ambiguousEncoding _ _ => some 5
  | .refused _ _ _ => none

/-- Port `state` (R204, R210): the readback between steps. -/
structure Readback where
  v : Vector Byte 16
  i : Word
  pc : Word
  sp : Fin 17
  stack : Vector Word 16
  dt : Byte
  st : Byte
  deriving DecidableEq, Repr

/-- What the host reads back (R210). -/
def State.readback (s : State) : Readback :=
  { v := s.v, i := s.i, pc := s.pc, sp := s.sp, stack := s.stack, dt := s.dt, st := s.st }

/-- Port `cost`: the duration in seconds an executed instruction reports (R96, R209; log 12). With the fixed-hertz
override configured every instruction reports the same (R231). -/
def costOf (i : Instr) : Rat := Config.fixedCost.getD (Config.cost i)

end Sys2Proof.Machine
end

