-- ==== Sys2Proof/Safety.lean ====
section
/-! DEFINITION. What a legal state and a safe run are, in the terms the claims use (spec R26, R34, R190, R199). -/

namespace Sys2Proof.Machine

/-- The core is running: "no fault recorded and not refused" (R199). -/
def State.isRunning (s : State) : Prop := s.status = .running

/-- A word of an ambiguous band (R75). -/
def isAmbiguousWord (op : Word) : Bool :=
  (famOf op == 0x0#4 && xOf op != 0 && (nnOf op == 0xE0#8 || nnOf op == 0xEE#8)) ||
    ((famOf op == 0x5#4 || famOf op == 0x9#4) && nOf op != 0x0#4)

/-- The records a status may hold (R34, R190): a fetch fault is `MemoryOutOfRange` at an address of 0xFFF or above and
records no opcode (R91); every other record is of an instruction fetched at 0xFFE or below, and a refusal is of an
ambiguous word (R195). -/
def Status.legal : Status → Prop
  | .running => True
  | .faulted kind addr none => kind = .memoryOutOfRange ∧ 0xFFF ≤ addr.toNat
  | .faulted _ addr (some _) => addr.toNat ≤ 0xFFE
  | .refused reason addr op => reason = .ambiguousEncoding ∧ addr.toNat ≤ 0xFFE ∧ isAmbiguousWord op = true

/-- The invariant of the machine: memory is canonical, PC is at most 0x10FE (R26), every stacked address is at most
0x1000 (R92, R104), and the status is legal. -/
structure State.Inv (s : State) : Prop where
  mem_wf : Memory.wf s.mem = true
  pc_le : s.pc.toNat ≤ 0x10FE
  stack_le : ∀ k : Fin 16, s.stack[k].toNat ≤ 0x1000
  status_legal : s.status.legal

end Sys2Proof.Machine
end

