-- ==== Sys2Proof/Certificates/Slice0/Obligations.lean ====
section
/-! DEFINITION. The statements for the provers: what the spec's numbered rules say the decoder, the instructions, the
cycle and the load do. `exec i s = .next t` is read with `s` the state after the fetch and advance, so `s.pc` is the
instruction's address + 2 and `s.opc` its opcode (R90, R92). -/

namespace Sys2Proof.Claims

open Sys2Proof.Machine

/-- The hex digit `k` of a word, 0 the lowest (R10, R11). -/
def digit (op : Word) (k : Nat) : Nat := op.toNat / 16 ^ k % 16

/-- The low byte of a word as a number. -/
def lowByte (op : Word) : Nat := op.toNat % 256

/-- Only PC may differ (R16). -/
def OnlyPc (s t : State) : Prop := t = { s with pc := t.pc }

/-- Only general registers may differ (R16). -/
def OnlyV (s t : State) : Prop := t = { s with v := t.v }

/-- Only I may differ (R16). -/
def OnlyI (s t : State) : Prop := t = { s with i := t.i }

/-- Only memory may differ (R16). -/
def OnlyMem (s t : State) : Prop := t = { s with mem := t.mem }

/-- Every general register but `x` keeps its value. -/
def KeepsAllBut (x : Reg) (s t : State) : Prop := ∀ k : Reg, k ≠ x → t.getV k = s.getV k

/-- Every general register but `x` and VF keeps its value. -/
def KeepsAllButVf (x : Reg) (s t : State) : Prop := ∀ k : Reg, k ≠ x → k ≠ 15 → t.getV k = s.getV k

/-- The state a fault of kind `k` leaves: the status alone is written (R93, R198). -/
def faultState (k : Fault) (s : State) : State := { s with status := .faulted k (s.pc - 2#16) (some s.opc) }

/-- A strict comparison as a flag, 1 or 0 (R128). -/
def gtFlag (a b : Byte) : Nat := if b.toNat < a.toNat then 1 else 0

/-- The two bytes at PC, as the word they make (R54). -/
def wordAtPc (s : State) : Word := wordOfBytes (s.peek s.pc.toNat) (s.peek (s.pc.toNat + 1))

/-- The byte at address `a` after `LD [I], Vx`: V[a - I] over the x + 1 bytes from I, the old byte elsewhere (R144). -/
def byteAfterStore (x : Reg) (s : State) (a : Nat) : Byte :=
  if s.i.toNat ≤ a ∧ a ≤ s.i.toNat + x.val then s.getV (Fin.ofNat 16 (a - s.i.toNat)) else s.peek a

/-- The byte at address `a` after `LD B, Vx`, as a number: the digits of V[x] over the three bytes from I, the old byte
elsewhere (R143). -/
def byteAfterBcd (x : Reg) (s : State) (a : Nat) : Nat :=
  if a = s.i.toNat then (s.getV x).toNat / 100
  else if a = s.i.toNat + 1 then (s.getV x).toNat / 10 % 10
  else if a = s.i.toNat + 2 then (s.getV x).toNat % 10
  else (s.peek a).toNat

/-- The word that the next step runs after `t` is `hi` and `lo`, high byte first: it is what the fetch reads, and a
running core's next step executes it after the boundary (logs 3, 4 and 5) and the advance. -/
def NextRuns (t : State) (hi lo : Nat) : Prop :=
  ∃ op : Word, op.toNat = hi * 256 + lo ∧ t.fetch = some op ∧
    (t.status = .running → ∀ r : AmbiguousDecode,
      stepWith r t = execDecoded (decodeWord r op) (t.boundary.advance op))

/-- A set bit of the `n`-row sprite at I, drawn from (Vx, Vy), lands on pixel (c, r), each pixel wrapping on its own
(R162). -/
def Lands (s : State) (x y : Reg) (n : BitVec 4) (c : Fin 64) (r : Fin 32) : Prop :=
  ∃ k b : Nat, k < n.toNat ∧ b < 8 ∧ (s.peek (s.i.toNat + k)).getLsbD (7 - b) = true ∧
    c.val = ((s.getV x).toNat % 64 + b) % 64 ∧ r.val = ((s.getV y).toNat % 32 + k) % 32

/-- The sprite's bytes lie in memory; with n = 0 there are none (R162). -/
def SpriteInside (s : State) (n : BitVec 4) : Prop := n = 0#4 ∨ s.i.toNat + n.toNat ≤ 4096

/-- `n` step boundaries, one after the other. -/
def boundaries : Nat → State → State
  | 0, s => s
  | n + 1, s => (boundaries n s).boundary

/-- `n` ticks with the same flags, one after the other. -/
def ticks (d e : Bool) : Nat → State → State
  | 0, s => s
  | n + 1, s => (ticks d e n s).tick d e

/-- The registers the table of R24 lets an instruction write. -/
def mayWrite : Instr → Reg → Prop
  | .ldImm x _, k | .addImm x _, k | .rnd x _, k => k = x
  | .ldReg x _, k | .orReg x _, k | .andReg x _, k | .xorReg x _, k => k = x
  | .addReg x _, k | .subReg x _, k | .subnReg x _, k | .shr x _, k | .shl x _, k => k = x ∨ k = 15
  | .drw _ _ _, k => k = 15
  | .ldVxDt x, k | .ldVxK x, k => k = x
  | .loadRegs x, k => k.val ≤ x.val
  | .cls, _ | .ret, _ | .jp _, _ | .call _, _ | .jpV0 _, _ | .sys _, _ | .ldI _, _ => False
  | .seImm _ _, _ | .sneImm _ _, _ | .seReg _ _, _ | .sneReg _ _, _ => False
  | .skp _, _ | .sknp _, _ | .ldDtVx _, _ | .ldStVx _, _ => False
  | .addI _, _ | .ldF _, _ | .ldB _, _ | .storeRegs _, _ => False

end Sys2Proof.Claims

open Sys2Proof Sys2Proof.Machine Sys2Proof.Claims

/-! ### Encoding -/

/-- R70-R74: decoding the word of a well-formed instruction gives it back, under every reading of the ambiguous bands. -/
def Obligations.DecodeOfEncodeGivesTheInstruction : Prop :=
  ∀ (r : AmbiguousDecode) (i : Instr), i.wf = true → decodeWord r (encode i) = .instr i

/-- R70-R74: a word that decodes to an instruction is that instruction's word, outside the prose reading (which reads
several words as one instruction, R75). -/
def Obligations.EncodeOfDecodedWordGivesTheWord : Prop :=
  ∀ (r : AmbiguousDecode) (op : Word) (i : Instr), r ≠ .prose → decodeWord r op = .instr i →
    i.wf = true ∧ encode i = op

/-- R74: a word that a row of the opcode map other than `SYS` matches decodes to an instruction of that row, under every
reading; and, outside the prose reading, a word that decodes to an instruction is matched by that instruction's row (for
`SYS`, the row of lowest priority, only this direction holds). -/
def Obligations.WordsDecodeToTheirRowOfTheOpcodeMap : Prop :=
  (∀ (r : AmbiguousDecode) (op : Word) (i : Instr), (∀ nnn, i ≠ .sys nnn) → op &&& rowMask i = rowMatch i →
    ∃ j, decodeWord r op = .instr j ∧ rowMask j = rowMask i ∧ rowMatch j = rowMatch i) ∧
  (∀ (r : AmbiguousDecode) (op : Word) (j : Instr), r ≠ .prose → decodeWord r op = .instr j →
    op &&& rowMask j = rowMatch j)

/-- R11: the fields of an opcode are its digits. -/
def Obligations.OpcodeFieldsAreItsDigits : Prop :=
  ∀ op : Word, (famOf op).toNat = digit op 3 ∧ (xOf op).val = digit op 2 ∧ (yOf op).val = digit op 1 ∧
    (nOf op).toNat = digit op 0 ∧ (nnOf op).toNat = op.toNat % 256 ∧ (nnnOf op).toNat = op.toNat % 4096

/-- R75: the words of the three ambiguous bands are refused, no-ops or the prose's instruction, as the parameter says,
and no other word is refused. -/
def Obligations.AmbiguousBandsReadAsTheParameterSays : Prop :=
  (∀ op : Word, digit op 3 = 0 → digit op 2 ≠ 0 → lowByte op = 0xE0 →
    decodeWord .refuse op = .ambiguous .amb0 ∧ decodeWord .table op = .unrecognised ∧
      decodeWord .prose op = .instr .cls) ∧
  (∀ op : Word, digit op 3 = 0 → digit op 2 ≠ 0 → lowByte op = 0xEE →
    decodeWord .refuse op = .ambiguous .amb0 ∧ decodeWord .table op = .unrecognised ∧
      decodeWord .prose op = .instr .ret) ∧
  (∀ (op : Word) (x y : Reg), digit op 3 = 5 → digit op 2 = x.val → digit op 1 = y.val → digit op 0 ≠ 0 →
    decodeWord .refuse op = .ambiguous .amb5 ∧ decodeWord .table op = .unrecognised ∧
      decodeWord .prose op = .instr (.seReg x y)) ∧
  (∀ (op : Word) (x y : Reg), digit op 3 = 9 → digit op 2 = x.val → digit op 1 = y.val → digit op 0 ≠ 0 →
    decodeWord .refuse op = .ambiguous .amb9 ∧ decodeWord .table op = .unrecognised ∧
      decodeWord .prose op = .instr (.sneReg x y)) ∧
  (∀ (op : Word) (b : AmbBand), decodeWord .refuse op = .ambiguous b →
    (digit op 3 = 0 ∧ digit op 2 ≠ 0 ∧ (lowByte op = 0xE0 ∨ lowByte op = 0xEE)) ∨
      ((digit op 3 = 5 ∨ digit op 3 = 9) ∧ digit op 0 ≠ 0)) ∧
  ambiguousReading = .refuse

/-- R76: exactly which words are unrecognised, the family-0 words among them (`0nnn`), and that they execute as no-ops:
after the advance nothing changes. -/
def Obligations.UnrecognisedWordsAreExactlyTheseAndDoNothing : Prop :=
  (∀ (r : AmbiguousDecode) (op : Word), r ≠ .table → (decodeWord r op = .unrecognised ↔
    (digit op 3 = 8 ∧ digit op 0 ∈ [0x8, 0x9, 0xA, 0xB, 0xC, 0xD, 0xF]) ∨
    (digit op 3 = 0xE ∧ lowByte op ∉ [0x9E, 0xA1]) ∨
    (digit op 3 = 0xF ∧ lowByte op ∉ [0x07, 0x0A, 0x15, 0x18, 0x1E, 0x29, 0x33, 0x55, 0x65]))) ∧
  (∀ (r : AmbiguousDecode) (op : Word), digit op 3 = 0 → lowByte op ∉ [0xE0, 0xEE] →
    ∃ nnn : Addr12, decodeWord r op = .instr (.sys nnn)) ∧
  (∀ s : State, execDecoded .unrecognised s = .next s) ∧
  (∀ (nnn : Addr12) (s : State), exec (.sys nnn) s = .next s)

/-- R74: words written out from the spec's encodings, one of each family, decode to the instructions they stand for. -/
def Obligations.WrittenOutWordsDecode : Prop :=
  decodeWord .refuse 0x00E0#16 = .instr .cls ∧ decodeWord .refuse 0x00EE#16 = .instr .ret ∧
  decodeWord .refuse 0x2210#16 = .instr (.call 0x210#12) ∧ decodeWord .refuse 0x5340#16 = .instr (.seReg 3 4) ∧
  decodeWord .refuse 0x8124#16 = .instr (.addReg 1 2) ∧ decodeWord .refuse 0xA050#16 = .instr (.ldI 0x050#12) ∧
  decodeWord .refuse 0xD125#16 = .instr (.drw 1 2 5#4) ∧ decodeWord .refuse 0xE5A1#16 = .instr (.sknp 5) ∧
  decodeWord .refuse 0xF265#16 = .instr (.loadRegs 2) ∧ decodeWord .refuse 0x0123#16 = .instr (.sys 0x123#12)

/-- R54, R70: an instruction is two bytes, the byte at the lower address the high one; fewer hold none; and the encoder
lays a word out the same way. -/
def Obligations.InstructionsAreTwoBytesBigEndian : Prop :=
  (∀ (r : AmbiguousDecode) (hi lo : Byte) (rest : List Byte), ∃ op : Word, op.toNat = hi.toNat * 256 + lo.toNat ∧
    decodeBytes r (hi :: lo :: rest) = some (decodeWord r op, rest)) ∧
  (∀ (r : AmbiguousDecode) (b : Byte), decodeBytes r [b] = none ∧ decodeBytes r [] = none) ∧
  (∀ (r : AmbiguousDecode) (i : Instr) (rest : List Byte), i.wf = true →
    decodeBytes r (encodeBytes i ++ rest) = some (.instr i, rest))

/-! ### The cycle -/

/-- R90, R92: when the bytes at PC decode to an instruction, a step of a running core passes the boundary (timers and
inputs only), latches the opcode, advances PC by exactly 2, and is `exec` of that instruction there.
The boundary is where the model puts a step's ticks and inputs (logs 3, 4 and 5). -/
def Obligations.StepRunsTheDecodedInstruction : Prop :=
  (∀ s : State, step s = stepWith ambiguousReading s) ∧
  (∀ (r : AmbiguousDecode) (s : State) (i : Instr), s.status = .running → s.pc.toNat + 1 < 4096 →
    decodeWord r (wordAtPc s) = .instr i →
    ∃ t : State, t = { s.boundary with opc := wordAtPc s, pc := t.pc } ∧ t.pc.toNat = s.pc.toNat + 2 ∧
      stepWith r s = exec i t)

/-- R94: a running core whose bytes at PC are an unrecognised word passes the boundary (logs 3, 4 and 5), and then only
advances PC and latches the opcode. -/
def Obligations.UnrecognisedWordStepOnlyAdvances : Prop :=
  ∀ (r : AmbiguousDecode) (s : State), s.status = .running → s.pc.toNat + 1 < 4096 →
    decodeWord r (wordAtPc s) = .unrecognised →
    ∃ t : State, stepWith r s = .next t ∧ t = { s.boundary with opc := wordAtPc s, pc := t.pc } ∧
      t.pc.toNat = s.pc.toNat + 2

/-- R91: a fetch at 0xFFF or above faults `MemoryOutOfRange`, records the address and no opcode, and leaves PC, OPC and
everything else as they were before the fetch, which comes after the boundary (logs 3, 4 and 5); a fetch at 0xFFE
succeeds. -/
def Obligations.FetchFaultsFrom0xFFF : Prop :=
  (∀ (r : AmbiguousDecode) (s : State), s.status = .running → 0xFFF ≤ s.pc.toNat →
    stepWith r s = .next { s.boundary with status := .faulted .memoryOutOfRange s.pc none }) ∧
  (∀ s : State, s.pc.toNat = 0xFFE → s.fetch = some (wordOfBytes (s.peek 0xFFE) (s.peek 0xFFF)))

/-- R195: a word of an ambiguous band under the reading `refuse` halts the core after the advance, with its address and
opcode recorded, before any effect of an execute phase. `step` takes that reading (log 9); the step first passes the
boundary (logs 3, 4 and 5). -/
def Obligations.AmbiguousWordHaltsRefused : Prop :=
  ∀ s : State, s.status = .running → s.pc.toNat + 1 < 4096 → isAmbiguousWord (wordAtPc s) = true →
    ∃ t : State, step s = .next t ∧ t.pc.toNat = s.pc.toNat + 2 ∧
      t = { s.boundary with
        opc := wordAtPc s, pc := t.pc, status := .refused .ambiguousEncoding s.pc (wordAtPc s) }

/-- R95, R177, R199: a step request to a halted core does nothing, under every reading; so k steps of it only pass k
boundaries, at which the ticks go on, at most one for each timer (logs 2 and 5), and the inputs are sampled (logs 3 and 4),
and nothing else of it ever changes. -/
def Obligations.HaltedCoreIgnoresEveryStep : Prop :=
  ∀ s : State, s.status ≠ .running → (∀ r : AmbiguousDecode, stepRequest r s = .next s ∧
      stepWith r s = .next s.boundary) ∧
    ∀ k : Nat, ∃ t : State, Host.Core.run core k s = .next t ∧ t = boundaries k s ∧
      t = { s with
        dt := t.dt, st := t.st, keys := t.keys, rnd := t.rnd, now := t.now, dtGap := t.dtGap, stGap := t.stGap } ∧
      s.dt.toNat - k ≤ t.dt.toNat ∧ t.dt.toNat ≤ s.dt.toNat ∧ s.st.toNat - k ≤ t.st.toNat ∧ t.st.toNat ≤ s.st.toNat

/-- R14, R93, R95: every step request is answered with a next state: faults and refusals are recorded in `status`,
which is the model's reading of R198 (log 1). -/
def Obligations.EveryStepAnswersANextState : Prop :=
  ∀ (r : AmbiguousDecode) (s : State), ∃ t : State, stepWith r s = .next t

/-- R26, R34, R38: the invariant holds after reset. -/
def Obligations.InvariantHoldsAtReset : Prop := State.reset.Inv

/-- R26, R34, R52, R104: every step keeps the invariant: memory canonical, PC at most 0x10FE, stacked addresses at most
0x1000, the status a legal record. -/
def Obligations.EveryStepKeepsTheInvariant : Prop :=
  ∀ (r : AmbiguousDecode) (s t : State), s.Inv → stepWith r s = .next t → t.Inv

/-- R93, R190, R198: an instruction that faults records its address and opcode and writes nothing else, and each kind is
raised by its own instructions under its own condition. -/
def Obligations.FaultsArePreciseAndRaisedByTheirInstructions : Prop :=
  ∀ (i : Instr) (s t : State) (k : Fault) (addr : Word) (op : Option Word), s.status = .running →
    exec i s = .next t → t.status = .faulted k addr op →
    t = faultState k s ∧
    (k = .stackOverflow → s.sp.val = 16 ∧ ∃ nnn, i = .call nnn) ∧
    (k = .stackUnderflow → s.sp.val = 0 ∧ i = .ret) ∧
    (k = .keyIndexOutOfRange → ∃ x, 0x0F < (s.getV x).toNat ∧ (i = .skp x ∨ i = .sknp x)) ∧
    (k = .memoryOutOfRange → (∃ x y n, i = .drw x y n ∧ 0 < n.toNat ∧ 4096 ≤ s.i.toNat + n.toNat - 1) ∨
      (∃ x, i = .ldB x ∧ 4096 ≤ s.i.toNat + 2) ∨
      (∃ x, (i = .storeRegs x ∨ i = .loadRegs x) ∧ 4096 ≤ s.i.toNat + x.val))

/-! ### Control flow -/

/-- R102, R192: `RET`. -/
def Obligations.ReturnPopsPcOrUnderflows : Prop :=
  ∀ s : State, (s.sp.val = 0 → exec .ret s = .next (faultState .stackUnderflow s)) ∧
    (∀ k : Fin 16, s.sp.val = k.val + 1 →
      ∃ t : State, exec .ret s = .next t ∧ t.sp.val = k.val ∧ t.pc = s.stack[k] ∧
        t = { s with sp := t.sp, pc := t.pc })

/-- R104, R191: `CALL nnn`. -/
def Obligations.CallPushesPcOrOverflows : Prop :=
  ∀ (nnn : Addr12) (s : State), (s.sp.val = 16 → exec (.call nnn) s = .next (faultState .stackOverflow s)) ∧
    (∀ k : Fin 16, s.sp.val = k.val →
      ∃ t : State, exec (.call nnn) s = .next t ∧ t.sp.val = k.val + 1 ∧ t.stack[k] = s.pc ∧
        (∀ j : Fin 16, j ≠ k → t.stack[j] = s.stack[j]) ∧ t.pc.toNat = nnn.toNat ∧
        t = { s with sp := t.sp, stack := t.stack, pc := t.pc })

/-- R103, R109: `JP nnn` and `JP V0, nnn` set PC, unmasked, and nothing else. -/
def Obligations.JumpsSetPcOnly : Prop :=
  ∀ (nnn : Addr12) (s : State),
    (∃ t : State, exec (.jp nnn) s = .next t ∧ OnlyPc s t ∧ t.pc.toNat = nnn.toNat) ∧
    (∃ t : State, exec (.jpV0 nnn) s = .next t ∧ OnlyPc s t ∧ t.pc.toNat = nnn.toNat + (s.getV 0).toNat)

/-- R100, R105, R106, R107, R108: the skips add a further 2 to PC exactly when their comparison holds, and nothing else
changes. -/
def Obligations.SkipsAdvancePcOnTheirCondition : Prop :=
  ∀ (x y : Reg) (nn : Byte) (s : State),
    (∃ t : State, exec (.seImm x nn) s = .next t ∧ OnlyPc s t ∧
      t.pc.toNat = if (s.getV x).toNat = nn.toNat then (s.pc.toNat + 2) % 65536 else s.pc.toNat) ∧
    (∃ t : State, exec (.sneImm x nn) s = .next t ∧ OnlyPc s t ∧
      t.pc.toNat = if (s.getV x).toNat = nn.toNat then s.pc.toNat else (s.pc.toNat + 2) % 65536) ∧
    (∃ t : State, exec (.seReg x y) s = .next t ∧ OnlyPc s t ∧
      t.pc.toNat = if (s.getV x).toNat = (s.getV y).toNat then (s.pc.toNat + 2) % 65536 else s.pc.toNat) ∧
    (∃ t : State, exec (.sneReg x y) s = .next t ∧ OnlyPc s t ∧
      t.pc.toNat = if (s.getV x).toNat = (s.getV y).toNat then s.pc.toNat else (s.pc.toNat + 2) % 65536)

/-- R102, R104, R110 (S8): a return from the state a call left, whatever else has changed since, resumes after the call
with the stack pointer back where it was. -/
def Obligations.ReturnAfterCallResumesAfterTheCall : Prop :=
  ∀ (nnn : Addr12) (s t u : State), s.sp.val < 16 → exec (.call nnn) s = .next t → u.sp = t.sp → u.stack = t.stack →
    ∃ w : State, exec .ret u = .next w ∧ w.pc = s.pc ∧ w.sp = s.sp

/-! ### Register and ALU operations -/

/-- R121, R122, R123: `LD Vx, nn`, `ADD Vx, nn` (no flag) and `LD Vx, Vy`. -/
def Obligations.LoadsAndImmediateAddWriteVxOnly : Prop :=
  ∀ (x y : Reg) (nn : Byte) (s : State),
    (∃ t : State, exec (.ldImm x nn) s = .next t ∧ OnlyV s t ∧ KeepsAllBut x s t ∧ t.getV x = nn) ∧
    (∃ t : State, exec (.addImm x nn) s = .next t ∧ OnlyV s t ∧ KeepsAllBut x s t ∧
      (t.getV x).toNat = ((s.getV x).toNat + nn.toNat) % 256) ∧
    (∃ t : State, exec (.ldReg x y) s = .next t ∧ OnlyV s t ∧ KeepsAllBut x s t ∧ t.getV x = s.getV y)

/-- R124, R125, R126: the logical operations act bit by bit, write V[x] and leave every other register, VF among them,
unless x = F. -/
def Obligations.LogicalOperationsActBitwiseWithoutFlag : Prop :=
  ∀ (x y : Reg) (s : State),
    (∃ t : State, exec (.orReg x y) s = .next t ∧ OnlyV s t ∧ KeepsAllBut x s t ∧
      ∀ b < 8, (t.getV x).getLsbD b = ((s.getV x).getLsbD b || (s.getV y).getLsbD b)) ∧
    (∃ t : State, exec (.andReg x y) s = .next t ∧ OnlyV s t ∧ KeepsAllBut x s t ∧
      ∀ b < 8, (t.getV x).getLsbD b = ((s.getV x).getLsbD b && (s.getV y).getLsbD b)) ∧
    (∃ t : State, exec (.xorReg x y) s = .next t ∧ OnlyV s t ∧ KeepsAllBut x s t ∧
      ∀ b < 8, (t.getV x).getLsbD b = ((s.getV x).getLsbD b ^^ (s.getV y).getLsbD b))

/-- R127: `ADD Vx, Vy`: the wrapped sum in V[x] and the carry in VF, which the sum overwrites when x = F. -/
def Obligations.AddWritesSumAndCarry : Prop :=
  ∀ (x y : Reg) (s : State), ∃ t : State, exec (.addReg x y) s = .next t ∧ OnlyV s t ∧ KeepsAllButVf x s t ∧
    (t.getV x).toNat = ((s.getV x).toNat + (s.getV y).toNat) % 256 ∧
    (x ≠ 15 → (t.getV 15).toNat = if 255 < (s.getV x).toNat + (s.getV y).toNat then 1 else 0)

/-- R128: `SUB Vx, Vy`, with the corner cases of an operand that is VF. -/
def Obligations.SubWritesNoBorrowThenDifference : Prop :=
  ∀ (x y : Reg) (s : State), ∃ t : State, exec (.subReg x y) s = .next t ∧ OnlyV s t ∧ KeepsAllButVf x s t ∧
    (x ≠ 15 → (t.getV 15).toNat = gtFlag (s.getV x) (s.getV y)) ∧
    (x ≠ 15 → y ≠ 15 → (t.getV x).toNat = ((s.getV x).toNat + 256 - (s.getV y).toNat) % 256) ∧
    (x ≠ 15 → y = 15 → (t.getV x).toNat = ((s.getV x).toNat + 256 - gtFlag (s.getV x) (s.getV y)) % 256) ∧
    (x = 15 → y ≠ 15 → (t.getV 15).toNat = (gtFlag (s.getV x) (s.getV y) + 256 - (s.getV y).toNat) % 256) ∧
    (x = 15 → y = 15 → t.getV 15 = 0x00#8)

/-- R130: `SUBN Vx, Vy`, with the corner cases of an operand that is VF. -/
def Obligations.SubnWritesNoBorrowThenDifference : Prop :=
  ∀ (x y : Reg) (s : State), ∃ t : State, exec (.subnReg x y) s = .next t ∧ OnlyV s t ∧ KeepsAllButVf x s t ∧
    (x ≠ 15 → (t.getV 15).toNat = gtFlag (s.getV y) (s.getV x)) ∧
    (x ≠ 15 → y ≠ 15 → (t.getV x).toNat = ((s.getV y).toNat + 256 - (s.getV x).toNat) % 256) ∧
    (x ≠ 15 → y = 15 → (t.getV x).toNat = (gtFlag (s.getV y) (s.getV x) + 256 - (s.getV x).toNat) % 256) ∧
    (x = 15 → y ≠ 15 → (t.getV 15).toNat = ((s.getV y).toNat + 256 - gtFlag (s.getV y) (s.getV x)) % 256) ∧
    (x = 15 → y = 15 → t.getV 15 = 0x00#8)

/-- R129, R131: the shifts move Vx by one bit and put the bit shifted out in VF, which the result overwrites when
x = F; Vy plays no part. -/
def Obligations.ShiftsMoveOneBitIntoVf : Prop :=
  ∀ (x y : Reg) (s : State),
    (∃ t : State, exec (.shr x y) s = .next t ∧ OnlyV s t ∧ KeepsAllButVf x s t ∧
      (x ≠ 15 → (t.getV 15).toNat = (s.getV x).toNat % 2 ∧ (t.getV x).toNat = (s.getV x).toNat / 2) ∧
      (x = 15 → t.getV 15 = 0x00#8)) ∧
    (∃ t : State, exec (.shl x y) s = .next t ∧ OnlyV s t ∧ KeepsAllButVf x s t ∧
      (x ≠ 15 → (t.getV 15).toNat = (s.getV x).toNat / 128 ∧ (t.getV x).toNat = (s.getV x).toNat * 2 % 256) ∧
      (x = 15 → (t.getV 15).toNat = if 128 ≤ (s.getV 15).toNat then 2 else 0))

/-- R132: `RND Vx, nn`: for every byte drawn, V[x] is that byte masked by nn. The byte is a free value of each step
(log 4). -/
def Obligations.RandomIsTheDrawnByteMasked : Prop :=
  ∀ (x : Reg) (nn b : Byte) (s : State), ∃ t : State, exec (.rnd x nn) { s with rnd := b } = .next t ∧
    OnlyV { s with rnd := b } t ∧ KeepsAllBut x s t ∧
    ∀ k < 8, (t.getV x).getLsbD k = (b.getLsbD k && nn.getLsbD k)

/-! ### Index register and memory transfers -/

/-- R140, R141, R142: `LD I, nnn`, `ADD I, Vx` (wrapping at 16 bits, no flag) and `LD F, Vx` (the whole of V[x]). -/
def Obligations.IndexInstructionsWriteIOnly : Prop :=
  ∀ (x : Reg) (nnn : Addr12) (s : State),
    (∃ t : State, exec (.ldI nnn) s = .next t ∧ OnlyI s t ∧ t.i.toNat = nnn.toNat) ∧
    (∃ t : State, exec (.addI x) s = .next t ∧ OnlyI s t ∧ t.i.toNat = (s.i.toNat + (s.getV x).toNat) % 65536) ∧
    (∃ t : State, exec (.ldF x) s = .next t ∧ OnlyI s t ∧ t.i.toNat = 0x050 + 5 * (s.getV x).toNat)

/-- R143: `LD B, Vx`: the three decimal digits at I, I+1 and I+2, every other byte unchanged, or the fault before any
write. -/
def Obligations.BcdStoresThreeDigitsAtI : Prop :=
  ∀ (x : Reg) (s : State), Memory.wf s.mem = true →
    (4096 ≤ s.i.toNat + 2 → exec (.ldB x) s = .next (faultState .memoryOutOfRange s)) ∧
    (s.i.toNat + 2 < 4096 → ∃ t : State, exec (.ldB x) s = .next t ∧ OnlyMem s t ∧
      (t.peek s.i.toNat).toNat = (s.getV x).toNat / 100 ∧
      (t.peek (s.i.toNat + 1)).toNat = (s.getV x).toNat / 10 % 10 ∧
      (t.peek (s.i.toNat + 2)).toNat = (s.getV x).toNat % 10 ∧
      ∀ a : Nat, a < s.i.toNat ∨ s.i.toNat + 2 < a → t.peek a = s.peek a)

/-- R144: `LD [I], Vx`: V0 through Vx at I through I+x, every other byte unchanged, I unchanged, or the fault before any
write. -/
def Obligations.StoreRegistersWritesV0ThroughVxAtI : Prop :=
  ∀ (x : Reg) (s : State), Memory.wf s.mem = true →
    (4096 ≤ s.i.toNat + x.val → exec (.storeRegs x) s = .next (faultState .memoryOutOfRange s)) ∧
    (s.i.toNat + x.val < 4096 → ∃ t : State, exec (.storeRegs x) s = .next t ∧ OnlyMem s t ∧
      (∀ k : Reg, k.val ≤ x.val → t.peek (s.i.toNat + k.val) = s.getV k) ∧
      ∀ a : Nat, a < s.i.toNat ∨ s.i.toNat + x.val < a → t.peek a = s.peek a)

/-- R145: `LD Vx, [I]`: V0 through Vx from I through I+x, every other register unchanged, I unchanged, or the fault
before any register write. -/
def Obligations.LoadRegistersReadsV0ThroughVxFromI : Prop :=
  ∀ (x : Reg) (s : State),
    (4096 ≤ s.i.toNat + x.val → exec (.loadRegs x) s = .next (faultState .memoryOutOfRange s)) ∧
    (s.i.toNat + x.val < 4096 → ∃ t : State, exec (.loadRegs x) s = .next t ∧ OnlyV s t ∧
      (∀ k : Reg, k.val ≤ x.val → t.getV k = s.peek (s.i.toNat + k.val)) ∧
      ∀ k : Reg, x.val < k.val → t.getV k = s.getV k)

/-- R144, R145: a block store and then a block load of the same registers from the same I restores them, whatever the
registers hold in between. -/
def Obligations.BlockLoadAfterBlockStoreRestoresRegisters : Prop :=
  ∀ (x : Reg) (s t : State) (v : Vector Byte 16), Memory.wf s.mem = true → s.i.toNat + x.val < 4096 →
    exec (.storeRegs x) s = .next t →
    ∃ w : State, exec (.loadRegs x) { t with v := v } = .next w ∧ ∀ k : Reg, k.val ≤ x.val → w.getV k = s.getV k

/-- R55, R66, R226: what a store leaves at PC is what the very next fetch reads and the very next step runs, for both
instructions that write memory and wherever the stored bytes lie: over both bytes at PC, over one of them, or over none. -/
def Obligations.NextFetchSeesTheStore : Prop :=
  ∀ (x : Reg) (s : State), Memory.wf s.mem = true → s.pc.toNat + 1 < 4096 →
    (s.i.toNat + x.val < 4096 → ∃ t : State, exec (.storeRegs x) s = .next t ∧ t.pc = s.pc ∧ t.status = s.status ∧
      NextRuns t (byteAfterStore x s s.pc.toNat).toNat (byteAfterStore x s (s.pc.toNat + 1)).toNat) ∧
    (s.i.toNat + 2 < 4096 → ∃ t : State, exec (.ldB x) s = .next t ∧ t.pc = s.pc ∧ t.status = s.status ∧
      NextRuns t (byteAfterBcd x s s.pc.toNat) (byteAfterBcd x s (s.pc.toNat + 1)))

/-! ### Display -/

/-- R161: `CLS` turns every pixel off and changes nothing else. -/
def Obligations.ClearScreenTurnsEveryPixelOff : Prop :=
  ∀ s : State, ∃ t : State, exec .cls s = .next t ∧ t = { s with fb := t.fb } ∧
    ∀ (c : Fin 64) (r : Fin 32), t.pixel c r = false

/-- R162: `DRW Vx, Vy, n` inverts exactly the pixels that set sprite bits land on, leaves every other pixel, sets VF to 1
if such a pixel was on and else to 0 (with n = 0 too), and changes nothing but the screen and VF; a sprite that runs past
0xFFF faults before VF or any pixel is written. -/
def Obligations.DrawInvertsExactlyTheSpritePixels : Prop :=
  ∀ (x y : Reg) (n : BitVec 4) (s : State),
    (¬ SpriteInside s n → exec (.drw x y n) s = .next (faultState .memoryOutOfRange s)) ∧
    (SpriteInside s n →
      ∃ t : State, exec (.drw x y n) s = .next t ∧ t = { s with v := t.v, fb := t.fb } ∧ KeepsAllBut 15 s t ∧
        (∀ (c : Fin 64) (r : Fin 32), (Lands s x y n c r → t.pixel c r = !s.pixel c r) ∧
          (¬ Lands s x y n c r → t.pixel c r = s.pixel c r)) ∧
        ((∃ (c : Fin 64) (r : Fin 32), Lands s x y n c r ∧ s.pixel c r = true) → t.getV 15 = 0x01#8) ∧
        ((∀ (c : Fin 64) (r : Fin 32), Lands s x y n c r → s.pixel c r = false) → t.getV 15 = 0x00#8))

/-- R164: drawing the same sprite again (the same I and n, the same n bytes from I and the same origin, whatever else has
changed but the screen) gives the framebuffer back, and then VF is 1 exactly if a set bit landed on a pixel that was off
before the first draw. -/
def Obligations.DrawingTwiceRestoresTheScreen : Prop :=
  ∀ (x y : Reg) (n : BitVec 4) (s t u : State), SpriteInside s n → exec (.drw x y n) s = .next t →
    u.fb = t.fb → u.i = s.i → (∀ k : Nat, k < n.toNat → u.peek (s.i.toNat + k) = s.peek (s.i.toNat + k)) →
    (u.getV x).toNat % 64 = (s.getV x).toNat % 64 → (u.getV y).toNat % 32 = (s.getV y).toNat % 32 →
    ∃ w : State, exec (.drw x y n) u = .next w ∧ w.fb = s.fb ∧
      (w.getV 15 = 0x01#8 ↔ ∃ (c : Fin 64) (r : Fin 32), Lands s x y n c r ∧ s.pixel c r = false)

/-! ### Keypad and timers -/

/-- R171, R172, R194: `SKP Vx` and `SKNP Vx` skip on the level of the key V[x] names, change nothing else, and fault on a
value over 0x0F. -/
def Obligations.KeySkipsFollowTheKeyLevel : Prop :=
  ∀ (x : Reg) (s : State),
    (0x0F < (s.getV x).toNat → exec (.skp x) s = .next (faultState .keyIndexOutOfRange s) ∧
      exec (.sknp x) s = .next (faultState .keyIndexOutOfRange s)) ∧
    (∀ k : Fin 16, (s.getV x).toNat = k.val →
      (∃ t : State, exec (.skp x) s = .next t ∧ OnlyPc s t ∧
        t.pc.toNat = if s.keys[k] = true then (s.pc.toNat + 2) % 65536 else s.pc.toNat) ∧
      (∃ t : State, exec (.sknp x) s = .next t ∧ OnlyPc s t ∧
        t.pc.toNat = if s.keys[k] = true then s.pc.toNat else (s.pc.toNat + 2) % 65536))

/-- R174: `LD Vx, K` takes the lowest key that is down, or with no key down puts PC back at itself; nothing else
changes. -/
def Obligations.KeyWaitTakesTheLowestKeyOrRewinds : Prop :=
  ∀ (x : Reg) (s : State),
    (∀ k : Fin 16, s.keys[k] = true → (∀ j : Fin 16, j < k → s.keys[j] = false) →
      ∃ t : State, exec (.ldVxK x) s = .next t ∧ OnlyV s t ∧ KeepsAllBut x s t ∧ (t.getV x).toNat = k.val) ∧
    ((∀ k : Fin 16, s.keys[k] = false) → exec (.ldVxK x) s = .next { s with pc := s.pc - 2#16 })

/-- R173, R175, R176, R207: reading DT into V[x], setting DT and ST from V[x], each changing nothing else; and the sound
port is on exactly when ST is not zero. -/
def Obligations.TimerInstructionsMoveOneByte : Prop :=
  ∀ (x : Reg) (s : State),
    (∃ t : State, exec (.ldVxDt x) s = .next t ∧ OnlyV s t ∧ KeepsAllBut x s t ∧ t.getV x = s.dt) ∧
    exec (.ldDtVx x) s = .next { s with dt := s.getV x } ∧
    exec (.ldStVx x) s = .next { s with st := s.getV x } ∧
    (s.soundOn = true ↔ 0 < s.st.toNat)

/-- R177, R178: a tick takes one from each timer it reaches that is not zero and changes nothing else, so a timer set to
v is exactly 0 after v ticks that reach it and stays 0. -/
def Obligations.TicksCountEachTimerDownToZero : Prop :=
  ∀ (n : Nat) (d e : Bool) (s : State),
    (ticks d e n s).dt.toNat = (if d then s.dt.toNat - n else s.dt.toNat) ∧
    (ticks d e n s).st.toNat = (if e then s.st.toNat - n else s.st.toNat) ∧
    ticks d e n s = { s with dt := (ticks d e n s).dt, st := (ticks d e n s).st }

/-- R177, R227: between two instructions each timer goes down by at most one, never below zero, and of the core's other
state nothing changes; the key levels and the random byte are those the environment supplies.
Where the boundary falls and how its inputs are supplied is the model's choice (logs 3, 4 and 5). -/
def Obligations.BoundaryLowersEachTimerAtMostOnce : Prop :=
  ∀ s : State, (s.boundary.dt = s.dt ∨ s.boundary.dt.toNat + 1 = s.dt.toNat) ∧
    (s.boundary.st = s.st ∨ s.boundary.st.toNat + 1 = s.st.toNat) ∧
    s.boundary = { s with
      dt := s.boundary.dt, st := s.boundary.st, keys := Config.keyLevels s.now, rnd := Config.randomByte s.now,
      now := s.boundary.now, dtGap := s.boundary.dtGap, stGap := s.boundary.stGap }

/-- R178 (fairness, as the model carries it, log 5): the tick that reaches a timer comes after a finite number of
boundaries, at the latest when its gap has run out, and not before. -/
def Obligations.EveryTimerIsReachedAfterItsGap : Prop :=
  ∀ s : State, (∀ n ≤ s.dtGap, (boundaries n s).dt = s.dt) ∧
    (boundaries (s.dtGap + 1) s).dt.toNat = s.dt.toNat - 1 ∧
    (∀ n ≤ s.stGap, (boundaries n s).st = s.st) ∧
    (boundaries (s.stGap + 1) s).st.toNat = s.st.toNat - 1

/-! ### Initialisation and ports -/

/-- R38, R220: what a load of at most 3584 bytes leaves, for every font and from every earlier state: the ROM, the font,
zero everywhere else, every register zero, PC at 0x200, the screen clear, the core running. -/
def Obligations.LoadPlacesRomFontAndZeroes : Prop :=
  ∀ (font : Vector Byte 80) (rom : List Byte) (s : State), rom.length ≤ 3584 →
    ∃ t : State, State.loadWith font rom s = .ok t ∧
      (∀ k : Nat, k < rom.length → t.peek (0x200 + k) = rom.getD k 0x00#8) ∧
      (∀ k : Fin 80, t.peek (0x050 + k.val) = font[k]) ∧
      (∀ a : Nat, a < 0x050 ∨ (0x0A0 ≤ a ∧ a < 0x200) ∨ (0x200 + rom.length ≤ a ∧ a < 4096) → t.peek a = 0x00#8) ∧
      (∀ x : Reg, t.getV x = 0x00#8) ∧ t.i = 0x0000#16 ∧ t.pc = 0x0200#16 ∧ t.sp.val = 0 ∧
      (∀ k : Fin 16, t.stack[k] = 0x0000#16) ∧ t.dt = 0x00#8 ∧ t.st = 0x00#8 ∧
      (∀ (c : Fin 64) (r : Fin 32), t.pixel c r = false) ∧ t.opc = 0x0000#16 ∧ t.status = .running

/-- R221: a ROM over 3584 bytes is refused `RomTooLarge`, and no state is built. -/
def Obligations.OversizedRomIsRefused : Prop :=
  ∀ (font : Vector Byte 80) (rom : List Byte) (s : State), 3584 < rom.length →
    State.loadWith font rom s = .error .romTooLarge

/-- R199, R220: whatever the state before it, a halted one too, a load leaves a legal state with the core running. -/
def Obligations.LoadLeavesALegalRunningState : Prop :=
  ∀ (font : Vector Byte 80) (rom : List Byte) (s t : State), State.loadWith font rom s = .ok t →
    t.Inv ∧ t.isRunning

/-- R222: the state after reset is the load of a zero-length ROM, with the default font (logs 8 and 11). -/
def Obligations.ResetIsTheLoadOfAnEmptyRom : Prop :=
  State.load [] State.reset = .ok State.reset

/-- R206: the framebuffer port is 2048 bytes, pixel (c, r) at index r × 64 + c, 0xFF on and 0x00 off. -/
def Obligations.FramebufferPortIsRowMajor : Prop :=
  ∀ s : State, s.fbPort.length = 2048 ∧ ∀ (c : Fin 64) (r : Fin 32),
    s.fbPort[r.val * 64 + c.val]? = some (if s.pixel c r then 0xFF#8 else 0x00#8)

/-! ### Whole-machine rules -/

/-- R163: only 00E0 and Dxyn write the framebuffer. -/
def Obligations.OnlyClsAndDrwWriteTheScreen : Prop :=
  ∀ (i : Instr) (s t : State), exec i s = .next t → t.fb ≠ s.fb → i = .cls ∨ ∃ x y n, i = .drw x y n

/-- R50, R57: only Fx33 and Fx55 write memory. -/
def Obligations.OnlyBcdAndStoreWriteMemory : Prop :=
  ∀ (i : Instr) (s t : State), exec i s = .next t → t.mem ≠ s.mem → ∃ x, i = .ldB x ∨ i = .storeRegs x

/-- R24: an instruction writes no general register but those its row of the table lists. -/
def Obligations.GeneralRegistersAreWrittenAsTheTableLists : Prop :=
  ∀ (i : Instr) (s t : State) (k : Reg), exec i s = .next t → t.getV k ≠ s.getV k → mayWrite i k

/-- R28, R29, R30, R31, R33, R35: which instructions write I, SP, the stack, DT and ST; OPC and the inputs of the step
are written by none, in the execute phase. -/
def Obligations.SpecialRegistersAreWrittenByTheirInstructions : Prop :=
  ∀ (i : Instr) (s t : State), exec i s = .next t →
    (t.i ≠ s.i → (∃ nnn, i = .ldI nnn) ∨ ∃ x, i = .addI x ∨ i = .ldF x) ∧
    (t.sp ≠ s.sp → i = .ret ∨ ∃ nnn, i = .call nnn) ∧
    (t.stack ≠ s.stack → ∃ nnn, i = .call nnn) ∧
    (t.dt ≠ s.dt → ∃ x, i = .ldDtVx x) ∧ (t.st ≠ s.st → ∃ x, i = .ldStVx x) ∧
    t.opc = s.opc ∧ t.keys = s.keys ∧ t.rnd = s.rnd ∧ t.now = s.now ∧ t.dtGap = s.dtGap ∧ t.stGap = s.stGap

/-- R25: after the advance only jumps, calls, returns, skips and the key wait move PC; a skip by 2 more, the key wait by 2
back. -/
def Obligations.PcMovesOnlyByJumpsSkipsAndTheKeyWait : Prop :=
  ∀ (i : Instr) (s t : State), exec i s = .next t → t.pc ≠ s.pc →
    (i = .ret ∨ (∃ nnn, i = .jp nnn ∨ i = .call nnn ∨ i = .jpV0 nnn)) ∨
    (t.pc = s.pc + 2#16 ∧ ((∃ x nn, i = .seImm x nn ∨ i = .sneImm x nn) ∨ (∃ x y, i = .seReg x y ∨ i = .sneReg x y) ∨
      ∃ x, i = .skp x ∨ i = .sknp x)) ∨
    (t.pc = s.pc - 2#16 ∧ ∃ x, i = .ldVxK x)

/-- R31: no instruction reads ST: with any other value in it every instruction does the same, but for what it leaves in
ST, which only Fx18 writes. -/
def Obligations.NoInstructionReadsTheSoundTimer : Prop :=
  ∀ (i : Instr) (s t : State) (b : Byte), exec i s = .next t →
    ((∀ x, i ≠ .ldStVx x) → exec i { s with st := b } = .next { t with st := b }) ∧
    ((∃ x, i = .ldStVx x) → exec i { s with st := b } = .next t)

/-- R170, R200, R204: the keypad is read by Ex9E, ExA1 and Fx0A alone, and the random byte by Cxnn alone. -/
def Obligations.InputsAreReadOnlyByTheirInstructions : Prop :=
  ∀ (i : Instr) (s t : State), exec i s = .next t →
    (∀ ks : Vector Bool 16, (∀ x, i ≠ .skp x ∧ i ≠ .sknp x ∧ i ≠ .ldVxK x) →
      exec i { s with keys := ks } = .next { t with keys := ks }) ∧
    (∀ b : Byte, (∀ x nn, i ≠ .rnd x nn) → exec i { s with rnd := b } = .next { t with rnd := b })
end

