-- ==== Sys2Proof/Laws/Decode.lean ====
section
/-! SUPPORT. The fields of a word laid out in each of the three formats (spec R71). -/

namespace Sys2Proof

@[simp] theorem toFin_regField (x : Reg) : (regField x).toFin = x := rfl

@[simp] theorem famOf_encAddr (f : BitVec 4) (n : Addr12) : famOf (encAddr f n) = f :=
  BitVec.extractLsb'_append_eq_left

@[simp] theorem nnnOf_encAddr (f : BitVec 4) (n : Addr12) : nnnOf (encAddr f n) = n :=
  BitVec.extractLsb'_append_eq_right

@[simp] theorem nnOf_encAddr (f : BitVec 4) (n : Addr12) : nnOf (encAddr f n) = n.extractLsb' 0 8 :=
  BitVec.extractLsb'_append_eq_of_add_le (xhi := f) (xlo := n) (by omega)

@[simp] theorem famOf_encImm (f : BitVec 4) (x : Reg) (nn : Byte) : famOf (encImm f x nn) = f :=
  famOf_encAddr f _

@[simp] theorem xOf_encImm (f : BitVec 4) (x : Reg) (nn : Byte) : xOf (encImm f x nn) = x := by
  have h : (encImm f x nn).extractLsb' 8 4 = regField x :=
    (BitVec.extractLsb'_append_eq_of_add_le (xhi := f) (xlo := regField x ++ nn) (by omega)).trans
      BitVec.extractLsb'_append_eq_left
  rw [xOf, h, toFin_regField]

@[simp] theorem nnOf_encImm (f : BitVec 4) (x : Reg) (nn : Byte) : nnOf (encImm f x nn) = nn :=
  (nnOf_encAddr f (regField x ++ nn)).trans BitVec.extractLsb'_append_eq_right

@[simp] theorem famOf_encReg (f : BitVec 4) (x y : Reg) (n : BitVec 4) : famOf (encReg f x y n) = f :=
  famOf_encAddr f _

@[simp] theorem xOf_encReg (f : BitVec 4) (x y : Reg) (n : BitVec 4) : xOf (encReg f x y n) = x :=
  xOf_encImm f x (regField y ++ n)

theorem nnOf_encReg (f : BitVec 4) (x y : Reg) (n : BitVec 4) : nnOf (encReg f x y n) = regField y ++ n :=
  nnOf_encImm f x (regField y ++ n)

@[simp] theorem yOf_encReg (f : BitVec 4) (x y : Reg) (n : BitVec 4) : yOf (encReg f x y n) = y := by
  have h : (encReg f x y n).extractLsb' 4 4 = regField y := by
    have e : (encReg f x y n).extractLsb' 4 4 = (nnOf (encReg f x y n)).extractLsb' 4 4 := by
      simp [nnOf, BitVec.extractLsb'_extractLsb'_of_le]
    rw [e, nnOf_encReg]
    exact BitVec.extractLsb'_append_eq_left
  rw [yOf, h, toFin_regField]

@[simp] theorem nOf_encReg (f : BitVec 4) (x y : Reg) (n : BitVec 4) : nOf (encReg f x y n) = n := by
  have e : nOf (encReg f x y n) = (nnOf (encReg f x y n)).extractLsb' 0 4 := by
    simp [nnOf, nOf, BitVec.extractLsb'_extractLsb'_of_le]
  rw [e, nnOf_encReg]
  exact BitVec.extractLsb'_append_eq_right

/-! ### A word is its fields -/

theorem regField_xOf (op : Word) : regField (xOf op) = op.extractLsb' 8 4 := rfl

theorem regField_yOf (op : Word) : regField (yOf op) = op.extractLsb' 4 4 := rfl

theorem nnnOf_split (op : Word) : nnnOf op = regField (xOf op) ++ nnOf op := by
  rw [← BitVec.extractLsb'_append_extractLsb' (x := nnnOf op) (w := 4) (len := 8), regField_xOf]
  congr 1 <;> simp [nnnOf, nnOf, BitVec.extractLsb'_extractLsb'_of_le]

theorem nnOf_split (op : Word) : nnOf op = regField (yOf op) ++ nOf op := by
  rw [← BitVec.extractLsb'_append_extractLsb' (x := nnOf op) (w := 4) (len := 4), regField_yOf]
  congr 1 <;> simp [nnOf, nOf, BitVec.extractLsb'_extractLsb'_of_le]

theorem word_eq_encAddr (op : Word) : op = encAddr (famOf op) (nnnOf op) :=
  (BitVec.extractLsb'_append_extractLsb' (x := op) (w := 4) (len := 12)).symm

theorem word_eq_encImm (op : Word) : op = encImm (famOf op) (xOf op) (nnOf op) := by
  conv_lhs => rw [word_eq_encAddr op, nnnOf_split]
  rfl

theorem word_eq_encReg (op : Word) : op = encReg (famOf op) (xOf op) (yOf op) (nOf op) := by
  conv_lhs => rw [word_eq_encImm op, nnOf_split]
  rfl

/-- A nibble is one of sixteen values. -/
theorem nibble_cases (f : BitVec 4) : f ∈ (List.finRange 16).map BitVec.ofFin :=
  List.mem_map.mpr ⟨f.toFin, List.mem_finRange _, rfl⟩

end Sys2Proof
end

