-- ==== Sys2Proof/Laws/Memory.lean ====
section
/-! SUPPORT. The laws of memory (spec R38, R50-R52, R62): every write keeps the canonical form, a read after a write to
the same address gives the byte written, and a write leaves every other address alone. -/

namespace Sys2Proof.Machine

theorem Memory.wfFrom_cons (lo a : Nat) (v : Byte) (rest : List Host.Cell) :
    Memory.wfFrom lo ((a, v) :: rest) = true ↔
      lo ≤ a ∧ a < memSize ∧ v ≠ Memory.background a ∧ Memory.wfFrom (a + 1) rest = true := by
  simp [Memory.wfFrom, and_assoc]

theorem Memory.wfFrom_mono {lo lo' : Nat} (h : lo' ≤ lo) :
    ∀ {m : List Host.Cell}, Memory.wfFrom lo m = true → Memory.wfFrom lo' m = true
  | [], _ => rfl
  | (a, v) :: rest, hm => by
    obtain ⟨h1, h2, h3, h4⟩ := (Memory.wfFrom_cons lo a v rest).mp hm
    exact (Memory.wfFrom_cons lo' a v rest).mpr ⟨by omega, h2, h3, h4⟩

theorem Memory.wf_nil : Memory.wf [] = true := rfl

theorem Memory.wfFrom_consByte {lo a : Nat} {v : Byte} {rest : List Host.Cell} (hlo : lo ≤ a) (ha : a < memSize)
    (h : Memory.wfFrom (a + 1) rest = true) : Memory.wfFrom lo (Memory.cons a v rest) = true := by
  unfold Memory.cons
  split
  · exact Memory.wfFrom_mono (by omega) h
  · next hv => exact (Memory.wfFrom_cons lo a v rest).mpr ⟨hlo, ha, hv, h⟩

theorem Memory.wfFrom_write {a : Nat} {v : Byte} (ha : a < memSize) :
    ∀ {m : List Host.Cell} {lo : Nat}, lo ≤ a → Memory.wfFrom lo m = true →
      Memory.wfFrom lo (Memory.write m a v) = true
  | [], _, hlo, _ => Memory.wfFrom_consByte hlo ha rfl
  | (b, w) :: rest, lo, hlo, hm => by
    obtain ⟨h1, h2, h3, h4⟩ := (Memory.wfFrom_cons lo b w rest).mp hm
    simp only [Memory.write]
    split
    · next hab => exact Memory.wfFrom_consByte hlo ha ((Memory.wfFrom_cons _ b w rest).mpr ⟨hab, h2, h3, h4⟩)
    · split
      · next hab => subst hab; exact Memory.wfFrom_consByte hlo ha h4
      · exact (Memory.wfFrom_cons lo b w _).mpr ⟨h1, h2, h3, Memory.wfFrom_write ha (by omega) h4⟩

/-- Every write inside the address space keeps the canonical form. -/
theorem Memory.wf_write {m : List Host.Cell} {a : Nat} {v : Byte} (ha : a < memSize) (h : Memory.wf m = true) :
    Memory.wf (Memory.write m a v) = true :=
  Memory.wfFrom_write ha (Nat.zero_le a) h

theorem Memory.wf_writeAll {vs : List Byte} :
    ∀ {m : List Host.Cell} {a : Nat}, a + vs.length ≤ memSize → Memory.wf m = true →
      Memory.wf (Memory.writeAll m a vs) = true := by
  induction vs with
  | nil => intro m a _ h; exact h
  | cons v vs ih =>
    intro m a ha h
    simp only [List.length_cons] at ha
    exact ih (by omega) (Memory.wf_write (by omega) h)

/-- Below its first address a canonical list lists nothing. -/
theorem Memory.read_of_lt {a : Nat} :
    ∀ {m : List Host.Cell} {lo : Nat}, a < lo → Memory.wfFrom lo m = true → Memory.read m a = Memory.background a
  | [], _, _, _ => rfl
  | (b, w) :: rest, lo, hlo, hm => by
    obtain ⟨h1, h2, h3, h4⟩ := (Memory.wfFrom_cons lo b w rest).mp hm
    simp only [Memory.read, if_neg (show a ≠ b by omega)]
    exact Memory.read_of_lt (by omega) h4

theorem Memory.read_cons_same {a lo : Nat} {v : Byte} {rest : List Host.Cell} (h : a < lo)
    (hr : Memory.wfFrom lo rest = true) : Memory.read (Memory.cons a v rest) a = v := by
  unfold Memory.cons
  split
  · next hv => rw [Memory.read_of_lt h hr, hv]
  · simp [Memory.read]

theorem Memory.read_cons_ne {a b : Nat} {v : Byte} {rest : List Host.Cell} (h : b ≠ a) :
    Memory.read (Memory.cons a v rest) b = Memory.read rest b := by
  unfold Memory.cons
  split
  · rfl
  · simp [Memory.read, h]

theorem Memory.read_writeFrom_same {a : Nat} {v : Byte} :
    ∀ {m : List Host.Cell} {lo : Nat}, Memory.wfFrom lo m = true → Memory.read (Memory.write m a v) a = v
  | [], _, _ => Memory.read_cons_same (Nat.lt_succ_self a) (rest := []) rfl
  | (b, w) :: rest, lo, hm => by
    obtain ⟨h1, h2, h3, h4⟩ := (Memory.wfFrom_cons lo b w rest).mp hm
    simp only [Memory.write]
    split
    · next hab =>
      exact Memory.read_cons_same hab ((Memory.wfFrom_cons _ b w rest).mpr ⟨Nat.le_refl b, h2, h3, h4⟩)
    · split
      · next hab => subst hab; exact Memory.read_cons_same (Nat.lt_succ_self a) h4
      · next hab => simp only [Memory.read, if_neg hab]; exact Memory.read_writeFrom_same h4

/-- A read after a write to the same address gives the byte written. -/
theorem Memory.read_write_same {m : List Host.Cell} {a : Nat} {v : Byte} (h : Memory.wf m = true) :
    Memory.read (Memory.write m a v) a = v :=
  Memory.read_writeFrom_same h

/-- A write leaves every other address alone. -/
theorem Memory.read_write_ne {a b : Nat} {v : Byte} (h : b ≠ a) :
    ∀ {m : List Host.Cell}, Memory.read (Memory.write m a v) b = Memory.read m b
  | [] => Memory.read_cons_ne h
  | (c, w) :: rest => by
    simp only [Memory.write]
    split
    · exact Memory.read_cons_ne h
    · split
      · next hac => subst hac; rw [Memory.read_cons_ne h]; simp [Memory.read, h]
      · simp only [Memory.read, Memory.read_write_ne h]

/-- What a run of bytes written from `base` up leaves at every address (spec R220). -/
theorem Memory.read_writeAll {vs : List Byte} :
    ∀ {m : List Host.Cell} {base : Nat}, base + vs.length ≤ memSize → Memory.wf m = true → ∀ a : Nat,
      Memory.read (Memory.writeAll m base vs) a =
        if base ≤ a ∧ a < base + vs.length then vs.getD (a - base) 0x00#8 else Memory.read m a := by
  induction vs with
  | nil => intro m base _ _ a; simp [Memory.writeAll]
  | cons v vs ih =>
    intro m base hb h a
    simp only [List.length_cons] at hb ⊢
    simp only [Memory.writeAll]
    rw [ih (by omega) (Memory.wf_write (by omega) h) a]
    by_cases ha : a = base
    · subst ha
      rw [if_neg (by omega), if_pos (by omega), Memory.read_write_same h]; simp
    · rw [Memory.read_write_ne ha]
      by_cases hin : base + 1 ≤ a ∧ a < base + 1 + vs.length
      · rw [if_pos hin, if_pos (by omega)]
        obtain ⟨k, hk⟩ : ∃ k, a - base = k + 1 := ⟨a - base - 1, by omega⟩
        rw [hk, show a - (base + 1) = k by omega]; simp
      · rw [if_neg hin, if_neg (by omega)]

end Sys2Proof.Machine
end

