-- ==== Sys2Proof/Laws/State.lean ====
section
/-! SUPPORT. What each field reads after each named update of the state, so that no later proof unfolds a record
update. -/

namespace Sys2Proof.Machine

section
variable (s : State)

/-! ### `setV` -/

@[simp] theorem State.setV_mem (x : Reg) (b : Byte) : (s.setV x b).mem = s.mem := rfl
@[simp] theorem State.setV_v (x : Reg) (b : Byte) : (s.setV x b).v = s.v.set x b := rfl
@[simp] theorem State.setV_i (x : Reg) (b : Byte) : (s.setV x b).i = s.i := rfl
@[simp] theorem State.setV_pc (x : Reg) (b : Byte) : (s.setV x b).pc = s.pc := rfl
@[simp] theorem State.setV_sp (x : Reg) (b : Byte) : (s.setV x b).sp = s.sp := rfl
@[simp] theorem State.setV_stack (x : Reg) (b : Byte) : (s.setV x b).stack = s.stack := rfl
@[simp] theorem State.setV_dt (x : Reg) (b : Byte) : (s.setV x b).dt = s.dt := rfl
@[simp] theorem State.setV_st (x : Reg) (b : Byte) : (s.setV x b).st = s.st := rfl
@[simp] theorem State.setV_fb (x : Reg) (b : Byte) : (s.setV x b).fb = s.fb := rfl
@[simp] theorem State.setV_opc (x : Reg) (b : Byte) : (s.setV x b).opc = s.opc := rfl
@[simp] theorem State.setV_status (x : Reg) (b : Byte) : (s.setV x b).status = s.status := rfl
@[simp] theorem State.setV_keys (x : Reg) (b : Byte) : (s.setV x b).keys = s.keys := rfl
@[simp] theorem State.setV_rnd (x : Reg) (b : Byte) : (s.setV x b).rnd = s.rnd := rfl
@[simp] theorem State.setV_now (x : Reg) (b : Byte) : (s.setV x b).now = s.now := rfl
@[simp] theorem State.setV_dtGap (x : Reg) (b : Byte) : (s.setV x b).dtGap = s.dtGap := rfl
@[simp] theorem State.setV_stGap (x : Reg) (b : Byte) : (s.setV x b).stGap = s.stGap := rfl

/-! ### `setI` -/

@[simp] theorem State.setI_mem (w : Word) : (s.setI w).mem = s.mem := rfl
@[simp] theorem State.setI_v (w : Word) : (s.setI w).v = s.v := rfl
@[simp] theorem State.setI_i (w : Word) : (s.setI w).i = w := rfl
@[simp] theorem State.setI_pc (w : Word) : (s.setI w).pc = s.pc := rfl
@[simp] theorem State.setI_sp (w : Word) : (s.setI w).sp = s.sp := rfl
@[simp] theorem State.setI_stack (w : Word) : (s.setI w).stack = s.stack := rfl
@[simp] theorem State.setI_dt (w : Word) : (s.setI w).dt = s.dt := rfl
@[simp] theorem State.setI_st (w : Word) : (s.setI w).st = s.st := rfl
@[simp] theorem State.setI_fb (w : Word) : (s.setI w).fb = s.fb := rfl
@[simp] theorem State.setI_opc (w : Word) : (s.setI w).opc = s.opc := rfl
@[simp] theorem State.setI_status (w : Word) : (s.setI w).status = s.status := rfl
@[simp] theorem State.setI_keys (w : Word) : (s.setI w).keys = s.keys := rfl
@[simp] theorem State.setI_rnd (w : Word) : (s.setI w).rnd = s.rnd := rfl
@[simp] theorem State.setI_now (w : Word) : (s.setI w).now = s.now := rfl
@[simp] theorem State.setI_dtGap (w : Word) : (s.setI w).dtGap = s.dtGap := rfl
@[simp] theorem State.setI_stGap (w : Word) : (s.setI w).stGap = s.stGap := rfl

/-! ### `setPc` -/

@[simp] theorem State.setPc_mem (w : Word) : (s.setPc w).mem = s.mem := rfl
@[simp] theorem State.setPc_v (w : Word) : (s.setPc w).v = s.v := rfl
@[simp] theorem State.setPc_i (w : Word) : (s.setPc w).i = s.i := rfl
@[simp] theorem State.setPc_pc (w : Word) : (s.setPc w).pc = w := rfl
@[simp] theorem State.setPc_sp (w : Word) : (s.setPc w).sp = s.sp := rfl
@[simp] theorem State.setPc_stack (w : Word) : (s.setPc w).stack = s.stack := rfl
@[simp] theorem State.setPc_dt (w : Word) : (s.setPc w).dt = s.dt := rfl
@[simp] theorem State.setPc_st (w : Word) : (s.setPc w).st = s.st := rfl
@[simp] theorem State.setPc_fb (w : Word) : (s.setPc w).fb = s.fb := rfl
@[simp] theorem State.setPc_opc (w : Word) : (s.setPc w).opc = s.opc := rfl
@[simp] theorem State.setPc_status (w : Word) : (s.setPc w).status = s.status := rfl
@[simp] theorem State.setPc_keys (w : Word) : (s.setPc w).keys = s.keys := rfl
@[simp] theorem State.setPc_rnd (w : Word) : (s.setPc w).rnd = s.rnd := rfl
@[simp] theorem State.setPc_now (w : Word) : (s.setPc w).now = s.now := rfl
@[simp] theorem State.setPc_dtGap (w : Word) : (s.setPc w).dtGap = s.dtGap := rfl
@[simp] theorem State.setPc_stGap (w : Word) : (s.setPc w).stGap = s.stGap := rfl

/-! ### `setDt` -/

@[simp] theorem State.setDt_mem (b : Byte) : (s.setDt b).mem = s.mem := rfl
@[simp] theorem State.setDt_v (b : Byte) : (s.setDt b).v = s.v := rfl
@[simp] theorem State.setDt_i (b : Byte) : (s.setDt b).i = s.i := rfl
@[simp] theorem State.setDt_pc (b : Byte) : (s.setDt b).pc = s.pc := rfl
@[simp] theorem State.setDt_sp (b : Byte) : (s.setDt b).sp = s.sp := rfl
@[simp] theorem State.setDt_stack (b : Byte) : (s.setDt b).stack = s.stack := rfl
@[simp] theorem State.setDt_dt (b : Byte) : (s.setDt b).dt = b := rfl
@[simp] theorem State.setDt_st (b : Byte) : (s.setDt b).st = s.st := rfl
@[simp] theorem State.setDt_fb (b : Byte) : (s.setDt b).fb = s.fb := rfl
@[simp] theorem State.setDt_opc (b : Byte) : (s.setDt b).opc = s.opc := rfl
@[simp] theorem State.setDt_status (b : Byte) : (s.setDt b).status = s.status := rfl
@[simp] theorem State.setDt_keys (b : Byte) : (s.setDt b).keys = s.keys := rfl
@[simp] theorem State.setDt_rnd (b : Byte) : (s.setDt b).rnd = s.rnd := rfl
@[simp] theorem State.setDt_now (b : Byte) : (s.setDt b).now = s.now := rfl
@[simp] theorem State.setDt_dtGap (b : Byte) : (s.setDt b).dtGap = s.dtGap := rfl
@[simp] theorem State.setDt_stGap (b : Byte) : (s.setDt b).stGap = s.stGap := rfl

/-! ### `setSt` -/

@[simp] theorem State.setSt_mem (b : Byte) : (s.setSt b).mem = s.mem := rfl
@[simp] theorem State.setSt_v (b : Byte) : (s.setSt b).v = s.v := rfl
@[simp] theorem State.setSt_i (b : Byte) : (s.setSt b).i = s.i := rfl
@[simp] theorem State.setSt_pc (b : Byte) : (s.setSt b).pc = s.pc := rfl
@[simp] theorem State.setSt_sp (b : Byte) : (s.setSt b).sp = s.sp := rfl
@[simp] theorem State.setSt_stack (b : Byte) : (s.setSt b).stack = s.stack := rfl
@[simp] theorem State.setSt_dt (b : Byte) : (s.setSt b).dt = s.dt := rfl
@[simp] theorem State.setSt_st (b : Byte) : (s.setSt b).st = b := rfl
@[simp] theorem State.setSt_fb (b : Byte) : (s.setSt b).fb = s.fb := rfl
@[simp] theorem State.setSt_opc (b : Byte) : (s.setSt b).opc = s.opc := rfl
@[simp] theorem State.setSt_status (b : Byte) : (s.setSt b).status = s.status := rfl
@[simp] theorem State.setSt_keys (b : Byte) : (s.setSt b).keys = s.keys := rfl
@[simp] theorem State.setSt_rnd (b : Byte) : (s.setSt b).rnd = s.rnd := rfl
@[simp] theorem State.setSt_now (b : Byte) : (s.setSt b).now = s.now := rfl
@[simp] theorem State.setSt_dtGap (b : Byte) : (s.setSt b).dtGap = s.dtGap := rfl
@[simp] theorem State.setSt_stGap (b : Byte) : (s.setSt b).stGap = s.stGap := rfl

/-! ### `skip` -/

@[simp] theorem State.skip_mem : s.skip.mem = s.mem := rfl
@[simp] theorem State.skip_v : s.skip.v = s.v := rfl
@[simp] theorem State.skip_i : s.skip.i = s.i := rfl
@[simp] theorem State.skip_pc : s.skip.pc = trunc16 (s.pc.toNat + 2) := rfl
@[simp] theorem State.skip_sp : s.skip.sp = s.sp := rfl
@[simp] theorem State.skip_stack : s.skip.stack = s.stack := rfl
@[simp] theorem State.skip_dt : s.skip.dt = s.dt := rfl
@[simp] theorem State.skip_st : s.skip.st = s.st := rfl
@[simp] theorem State.skip_fb : s.skip.fb = s.fb := rfl
@[simp] theorem State.skip_opc : s.skip.opc = s.opc := rfl
@[simp] theorem State.skip_status : s.skip.status = s.status := rfl
@[simp] theorem State.skip_keys : s.skip.keys = s.keys := rfl
@[simp] theorem State.skip_rnd : s.skip.rnd = s.rnd := rfl
@[simp] theorem State.skip_now : s.skip.now = s.now := rfl
@[simp] theorem State.skip_dtGap : s.skip.dtGap = s.dtGap := rfl
@[simp] theorem State.skip_stGap : s.skip.stGap = s.stGap := rfl

/-! ### `halt` -/

@[simp] theorem State.halt_mem (h : Status) : (s.halt h).mem = s.mem := rfl
@[simp] theorem State.halt_v (h : Status) : (s.halt h).v = s.v := rfl
@[simp] theorem State.halt_i (h : Status) : (s.halt h).i = s.i := rfl
@[simp] theorem State.halt_pc (h : Status) : (s.halt h).pc = s.pc := rfl
@[simp] theorem State.halt_sp (h : Status) : (s.halt h).sp = s.sp := rfl
@[simp] theorem State.halt_stack (h : Status) : (s.halt h).stack = s.stack := rfl
@[simp] theorem State.halt_dt (h : Status) : (s.halt h).dt = s.dt := rfl
@[simp] theorem State.halt_st (h : Status) : (s.halt h).st = s.st := rfl
@[simp] theorem State.halt_fb (h : Status) : (s.halt h).fb = s.fb := rfl
@[simp] theorem State.halt_opc (h : Status) : (s.halt h).opc = s.opc := rfl
@[simp] theorem State.halt_status (h : Status) : (s.halt h).status = h := rfl
@[simp] theorem State.halt_keys (h : Status) : (s.halt h).keys = s.keys := rfl
@[simp] theorem State.halt_rnd (h : Status) : (s.halt h).rnd = s.rnd := rfl
@[simp] theorem State.halt_now (h : Status) : (s.halt h).now = s.now := rfl
@[simp] theorem State.halt_dtGap (h : Status) : (s.halt h).dtGap = s.dtGap := rfl
@[simp] theorem State.halt_stGap (h : Status) : (s.halt h).stGap = s.stGap := rfl

/-! ### `raise` -/

@[simp] theorem State.raise_mem (k : Fault) : (s.raise k).mem = s.mem := rfl
@[simp] theorem State.raise_v (k : Fault) : (s.raise k).v = s.v := rfl
@[simp] theorem State.raise_i (k : Fault) : (s.raise k).i = s.i := rfl
@[simp] theorem State.raise_pc (k : Fault) : (s.raise k).pc = s.pc := rfl
@[simp] theorem State.raise_sp (k : Fault) : (s.raise k).sp = s.sp := rfl
@[simp] theorem State.raise_stack (k : Fault) : (s.raise k).stack = s.stack := rfl
@[simp] theorem State.raise_dt (k : Fault) : (s.raise k).dt = s.dt := rfl
@[simp] theorem State.raise_st (k : Fault) : (s.raise k).st = s.st := rfl
@[simp] theorem State.raise_fb (k : Fault) : (s.raise k).fb = s.fb := rfl
@[simp] theorem State.raise_opc (k : Fault) : (s.raise k).opc = s.opc := rfl
@[simp] theorem State.raise_status (k : Fault) : (s.raise k).status = .faulted k (s.pc - 2#16) (some s.opc) := rfl
@[simp] theorem State.raise_keys (k : Fault) : (s.raise k).keys = s.keys := rfl
@[simp] theorem State.raise_rnd (k : Fault) : (s.raise k).rnd = s.rnd := rfl
@[simp] theorem State.raise_now (k : Fault) : (s.raise k).now = s.now := rfl
@[simp] theorem State.raise_dtGap (k : Fault) : (s.raise k).dtGap = s.dtGap := rfl
@[simp] theorem State.raise_stGap (k : Fault) : (s.raise k).stGap = s.stGap := rfl

/-! ### `raiseFetch` -/

@[simp] theorem State.raiseFetch_mem : s.raiseFetch.mem = s.mem := rfl
@[simp] theorem State.raiseFetch_v : s.raiseFetch.v = s.v := rfl
@[simp] theorem State.raiseFetch_i : s.raiseFetch.i = s.i := rfl
@[simp] theorem State.raiseFetch_pc : s.raiseFetch.pc = s.pc := rfl
@[simp] theorem State.raiseFetch_sp : s.raiseFetch.sp = s.sp := rfl
@[simp] theorem State.raiseFetch_stack : s.raiseFetch.stack = s.stack := rfl
@[simp] theorem State.raiseFetch_dt : s.raiseFetch.dt = s.dt := rfl
@[simp] theorem State.raiseFetch_st : s.raiseFetch.st = s.st := rfl
@[simp] theorem State.raiseFetch_fb : s.raiseFetch.fb = s.fb := rfl
@[simp] theorem State.raiseFetch_opc : s.raiseFetch.opc = s.opc := rfl
@[simp] theorem State.raiseFetch_status : s.raiseFetch.status = .faulted .memoryOutOfRange s.pc none := rfl
@[simp] theorem State.raiseFetch_keys : s.raiseFetch.keys = s.keys := rfl
@[simp] theorem State.raiseFetch_rnd : s.raiseFetch.rnd = s.rnd := rfl
@[simp] theorem State.raiseFetch_now : s.raiseFetch.now = s.now := rfl
@[simp] theorem State.raiseFetch_dtGap : s.raiseFetch.dtGap = s.dtGap := rfl
@[simp] theorem State.raiseFetch_stGap : s.raiseFetch.stGap = s.stGap := rfl

/-! ### `refuseWord` -/

@[simp] theorem State.refuseWord_mem : s.refuseWord.mem = s.mem := rfl
@[simp] theorem State.refuseWord_v : s.refuseWord.v = s.v := rfl
@[simp] theorem State.refuseWord_i : s.refuseWord.i = s.i := rfl
@[simp] theorem State.refuseWord_pc : s.refuseWord.pc = s.pc := rfl
@[simp] theorem State.refuseWord_sp : s.refuseWord.sp = s.sp := rfl
@[simp] theorem State.refuseWord_stack : s.refuseWord.stack = s.stack := rfl
@[simp] theorem State.refuseWord_dt : s.refuseWord.dt = s.dt := rfl
@[simp] theorem State.refuseWord_st : s.refuseWord.st = s.st := rfl
@[simp] theorem State.refuseWord_fb : s.refuseWord.fb = s.fb := rfl
@[simp] theorem State.refuseWord_opc : s.refuseWord.opc = s.opc := rfl
@[simp] theorem State.refuseWord_status : s.refuseWord.status = .refused .ambiguousEncoding (s.pc - 2#16) s.opc := rfl
@[simp] theorem State.refuseWord_keys : s.refuseWord.keys = s.keys := rfl
@[simp] theorem State.refuseWord_rnd : s.refuseWord.rnd = s.rnd := rfl
@[simp] theorem State.refuseWord_now : s.refuseWord.now = s.now := rfl
@[simp] theorem State.refuseWord_dtGap : s.refuseWord.dtGap = s.dtGap := rfl
@[simp] theorem State.refuseWord_stGap : s.refuseWord.stGap = s.stGap := rfl

/-! ### `setPixel` -/

@[simp] theorem State.setPixel_mem (c : Fin 64) (r : Fin 32) (b : Bool) : (s.setPixel c r b).mem = s.mem := rfl
@[simp] theorem State.setPixel_v (c : Fin 64) (r : Fin 32) (b : Bool) : (s.setPixel c r b).v = s.v := rfl
@[simp] theorem State.setPixel_i (c : Fin 64) (r : Fin 32) (b : Bool) : (s.setPixel c r b).i = s.i := rfl
@[simp] theorem State.setPixel_pc (c : Fin 64) (r : Fin 32) (b : Bool) : (s.setPixel c r b).pc = s.pc := rfl
@[simp] theorem State.setPixel_sp (c : Fin 64) (r : Fin 32) (b : Bool) : (s.setPixel c r b).sp = s.sp := rfl
@[simp] theorem State.setPixel_stack (c : Fin 64) (r : Fin 32) (b : Bool) : (s.setPixel c r b).stack = s.stack := rfl
@[simp] theorem State.setPixel_dt (c : Fin 64) (r : Fin 32) (b : Bool) : (s.setPixel c r b).dt = s.dt := rfl
@[simp] theorem State.setPixel_st (c : Fin 64) (r : Fin 32) (b : Bool) : (s.setPixel c r b).st = s.st := rfl
@[simp] theorem State.setPixel_fb (c : Fin 64) (r : Fin 32) (b : Bool) : (s.setPixel c r b).fb = s.fb.set r (s.fb[r].set c b) := rfl
@[simp] theorem State.setPixel_opc (c : Fin 64) (r : Fin 32) (b : Bool) : (s.setPixel c r b).opc = s.opc := rfl
@[simp] theorem State.setPixel_status (c : Fin 64) (r : Fin 32) (b : Bool) : (s.setPixel c r b).status = s.status := rfl
@[simp] theorem State.setPixel_keys (c : Fin 64) (r : Fin 32) (b : Bool) : (s.setPixel c r b).keys = s.keys := rfl
@[simp] theorem State.setPixel_rnd (c : Fin 64) (r : Fin 32) (b : Bool) : (s.setPixel c r b).rnd = s.rnd := rfl
@[simp] theorem State.setPixel_now (c : Fin 64) (r : Fin 32) (b : Bool) : (s.setPixel c r b).now = s.now := rfl
@[simp] theorem State.setPixel_dtGap (c : Fin 64) (r : Fin 32) (b : Bool) : (s.setPixel c r b).dtGap = s.dtGap := rfl
@[simp] theorem State.setPixel_stGap (c : Fin 64) (r : Fin 32) (b : Bool) : (s.setPixel c r b).stGap = s.stGap := rfl

/-! ### `clearScreen` -/

@[simp] theorem State.clearScreen_mem : s.clearScreen.mem = s.mem := rfl
@[simp] theorem State.clearScreen_v : s.clearScreen.v = s.v := rfl
@[simp] theorem State.clearScreen_i : s.clearScreen.i = s.i := rfl
@[simp] theorem State.clearScreen_pc : s.clearScreen.pc = s.pc := rfl
@[simp] theorem State.clearScreen_sp : s.clearScreen.sp = s.sp := rfl
@[simp] theorem State.clearScreen_stack : s.clearScreen.stack = s.stack := rfl
@[simp] theorem State.clearScreen_dt : s.clearScreen.dt = s.dt := rfl
@[simp] theorem State.clearScreen_st : s.clearScreen.st = s.st := rfl
@[simp] theorem State.clearScreen_fb : s.clearScreen.fb = Vector.replicate 32 (Vector.replicate 64 false) := rfl
@[simp] theorem State.clearScreen_opc : s.clearScreen.opc = s.opc := rfl
@[simp] theorem State.clearScreen_status : s.clearScreen.status = s.status := rfl
@[simp] theorem State.clearScreen_keys : s.clearScreen.keys = s.keys := rfl
@[simp] theorem State.clearScreen_rnd : s.clearScreen.rnd = s.rnd := rfl
@[simp] theorem State.clearScreen_now : s.clearScreen.now = s.now := rfl
@[simp] theorem State.clearScreen_dtGap : s.clearScreen.dtGap = s.dtGap := rfl
@[simp] theorem State.clearScreen_stGap : s.clearScreen.stGap = s.stGap := rfl

/-! ### `tick` -/

@[simp] theorem State.tick_mem (d e : Bool) : (s.tick d e).mem = s.mem := rfl
@[simp] theorem State.tick_v (d e : Bool) : (s.tick d e).v = s.v := rfl
@[simp] theorem State.tick_i (d e : Bool) : (s.tick d e).i = s.i := rfl
@[simp] theorem State.tick_pc (d e : Bool) : (s.tick d e).pc = s.pc := rfl
@[simp] theorem State.tick_sp (d e : Bool) : (s.tick d e).sp = s.sp := rfl
@[simp] theorem State.tick_stack (d e : Bool) : (s.tick d e).stack = s.stack := rfl
@[simp] theorem State.tick_dt (d e : Bool) : (s.tick d e).dt = countDown s.dt d := rfl
@[simp] theorem State.tick_st (d e : Bool) : (s.tick d e).st = countDown s.st e := rfl
@[simp] theorem State.tick_fb (d e : Bool) : (s.tick d e).fb = s.fb := rfl
@[simp] theorem State.tick_opc (d e : Bool) : (s.tick d e).opc = s.opc := rfl
@[simp] theorem State.tick_status (d e : Bool) : (s.tick d e).status = s.status := rfl
@[simp] theorem State.tick_keys (d e : Bool) : (s.tick d e).keys = s.keys := rfl
@[simp] theorem State.tick_rnd (d e : Bool) : (s.tick d e).rnd = s.rnd := rfl
@[simp] theorem State.tick_now (d e : Bool) : (s.tick d e).now = s.now := rfl
@[simp] theorem State.tick_dtGap (d e : Bool) : (s.tick d e).dtGap = s.dtGap := rfl
@[simp] theorem State.tick_stGap (d e : Bool) : (s.tick d e).stGap = s.stGap := rfl

/-! ### `advance` -/

@[simp] theorem State.advance_mem (op : Word) : (s.advance op).mem = s.mem := rfl
@[simp] theorem State.advance_v (op : Word) : (s.advance op).v = s.v := rfl
@[simp] theorem State.advance_i (op : Word) : (s.advance op).i = s.i := rfl
@[simp] theorem State.advance_pc (op : Word) : (s.advance op).pc = trunc16 (s.pc.toNat + 2) := rfl
@[simp] theorem State.advance_sp (op : Word) : (s.advance op).sp = s.sp := rfl
@[simp] theorem State.advance_stack (op : Word) : (s.advance op).stack = s.stack := rfl
@[simp] theorem State.advance_dt (op : Word) : (s.advance op).dt = s.dt := rfl
@[simp] theorem State.advance_st (op : Word) : (s.advance op).st = s.st := rfl
@[simp] theorem State.advance_fb (op : Word) : (s.advance op).fb = s.fb := rfl
@[simp] theorem State.advance_opc (op : Word) : (s.advance op).opc = op := rfl
@[simp] theorem State.advance_status (op : Word) : (s.advance op).status = s.status := rfl
@[simp] theorem State.advance_keys (op : Word) : (s.advance op).keys = s.keys := rfl
@[simp] theorem State.advance_rnd (op : Word) : (s.advance op).rnd = s.rnd := rfl
@[simp] theorem State.advance_now (op : Word) : (s.advance op).now = s.now := rfl
@[simp] theorem State.advance_dtGap (op : Word) : (s.advance op).dtGap = s.dtGap := rfl
@[simp] theorem State.advance_stGap (op : Word) : (s.advance op).stGap = s.stGap := rfl

/-! ### `boundary` -/

@[simp] theorem State.boundary_mem : s.boundary.mem = s.mem := rfl
@[simp] theorem State.boundary_v : s.boundary.v = s.v := rfl
@[simp] theorem State.boundary_i : s.boundary.i = s.i := rfl
@[simp] theorem State.boundary_pc : s.boundary.pc = s.pc := rfl
@[simp] theorem State.boundary_sp : s.boundary.sp = s.sp := rfl
@[simp] theorem State.boundary_stack : s.boundary.stack = s.stack := rfl
@[simp] theorem State.boundary_dt : s.boundary.dt = countDown s.dt (s.dtGap == 0) := rfl
@[simp] theorem State.boundary_st : s.boundary.st = countDown s.st (s.stGap == 0) := rfl
@[simp] theorem State.boundary_fb : s.boundary.fb = s.fb := rfl
@[simp] theorem State.boundary_opc : s.boundary.opc = s.opc := rfl
@[simp] theorem State.boundary_status : s.boundary.status = s.status := rfl
@[simp] theorem State.boundary_keys : s.boundary.keys = Config.keyLevels s.now := rfl
@[simp] theorem State.boundary_rnd : s.boundary.rnd = Config.randomByte s.now := rfl
@[simp] theorem State.boundary_now : s.boundary.now = s.now + 1 := rfl
@[simp] theorem State.boundary_dtGap : s.boundary.dtGap = nextGap s.dtGap (Config.delayTickGap s.now) := rfl
@[simp] theorem State.boundary_stGap : s.boundary.stGap = nextGap s.stGap (Config.soundTickGap s.now) := rfl

/-! ### `skipIf`, `poke`, `xorPixel` -/

@[simp] theorem State.skipIf_mem (c : Bool) : (s.skipIf c).mem = s.mem := by cases c <;> rfl
@[simp] theorem State.skipIf_v (c : Bool) : (s.skipIf c).v = s.v := by cases c <;> rfl
@[simp] theorem State.skipIf_i (c : Bool) : (s.skipIf c).i = s.i := by cases c <;> rfl
@[simp] theorem State.skipIf_sp (c : Bool) : (s.skipIf c).sp = s.sp := by cases c <;> rfl
@[simp] theorem State.skipIf_stack (c : Bool) : (s.skipIf c).stack = s.stack := by cases c <;> rfl
@[simp] theorem State.skipIf_dt (c : Bool) : (s.skipIf c).dt = s.dt := by cases c <;> rfl
@[simp] theorem State.skipIf_st (c : Bool) : (s.skipIf c).st = s.st := by cases c <;> rfl
@[simp] theorem State.skipIf_fb (c : Bool) : (s.skipIf c).fb = s.fb := by cases c <;> rfl
@[simp] theorem State.skipIf_opc (c : Bool) : (s.skipIf c).opc = s.opc := by cases c <;> rfl
@[simp] theorem State.skipIf_status (c : Bool) : (s.skipIf c).status = s.status := by cases c <;> rfl
@[simp] theorem State.skipIf_keys (c : Bool) : (s.skipIf c).keys = s.keys := by cases c <;> rfl
@[simp] theorem State.skipIf_rnd (c : Bool) : (s.skipIf c).rnd = s.rnd := by cases c <;> rfl
@[simp] theorem State.skipIf_now (c : Bool) : (s.skipIf c).now = s.now := by cases c <;> rfl
@[simp] theorem State.skipIf_dtGap (c : Bool) : (s.skipIf c).dtGap = s.dtGap := by cases c <;> rfl
@[simp] theorem State.skipIf_stGap (c : Bool) : (s.skipIf c).stGap = s.stGap := by cases c <;> rfl
@[simp] theorem State.skipIf_pc (c : Bool) :
    (s.skipIf c).pc = if c then trunc16 (s.pc.toNat + 2) else s.pc := by cases c <;> rfl

theorem State.poke_eq (a : Nat) (b : Byte) :
    s.poke a b = { s with mem := if memSize ≤ a then s.mem else Memory.write s.mem a b } := by
  unfold State.poke State.memWrite
  split <;> simp

@[simp] theorem State.poke_mem (a : Nat) (b : Byte) :
    (s.poke a b).mem = if memSize ≤ a then s.mem else Memory.write s.mem a b := by rw [State.poke_eq]
@[simp] theorem State.poke_v (a : Nat) (b : Byte) : (s.poke a b).v = s.v := by rw [State.poke_eq]
@[simp] theorem State.poke_i (a : Nat) (b : Byte) : (s.poke a b).i = s.i := by rw [State.poke_eq]
@[simp] theorem State.poke_pc (a : Nat) (b : Byte) : (s.poke a b).pc = s.pc := by rw [State.poke_eq]
@[simp] theorem State.poke_sp (a : Nat) (b : Byte) : (s.poke a b).sp = s.sp := by rw [State.poke_eq]
@[simp] theorem State.poke_stack (a : Nat) (b : Byte) : (s.poke a b).stack = s.stack := by rw [State.poke_eq]
@[simp] theorem State.poke_dt (a : Nat) (b : Byte) : (s.poke a b).dt = s.dt := by rw [State.poke_eq]
@[simp] theorem State.poke_st (a : Nat) (b : Byte) : (s.poke a b).st = s.st := by rw [State.poke_eq]
@[simp] theorem State.poke_fb (a : Nat) (b : Byte) : (s.poke a b).fb = s.fb := by rw [State.poke_eq]
@[simp] theorem State.poke_opc (a : Nat) (b : Byte) : (s.poke a b).opc = s.opc := by rw [State.poke_eq]
@[simp] theorem State.poke_status (a : Nat) (b : Byte) : (s.poke a b).status = s.status := by rw [State.poke_eq]
@[simp] theorem State.poke_keys (a : Nat) (b : Byte) : (s.poke a b).keys = s.keys := by rw [State.poke_eq]
@[simp] theorem State.poke_rnd (a : Nat) (b : Byte) : (s.poke a b).rnd = s.rnd := by rw [State.poke_eq]
@[simp] theorem State.poke_now (a : Nat) (b : Byte) : (s.poke a b).now = s.now := by rw [State.poke_eq]
@[simp] theorem State.poke_dtGap (a : Nat) (b : Byte) : (s.poke a b).dtGap = s.dtGap := by rw [State.poke_eq]
@[simp] theorem State.poke_stGap (a : Nat) (b : Byte) : (s.poke a b).stGap = s.stGap := by rw [State.poke_eq]

theorem State.xorPixel_eq (c : Fin 64) (r : Fin 32) :
    s.xorPixel c r = { s with
      v := if s.pixel c r then s.v.set vf 0x01#8 else s.v
      fb := s.fb.set r (s.fb[r].set c (!s.pixel c r)) } := by
  unfold State.xorPixel
  split <;> rfl

@[simp] theorem State.xorPixel_mem (c : Fin 64) (r : Fin 32) : (s.xorPixel c r).mem = s.mem := by rw [State.xorPixel_eq]
@[simp] theorem State.xorPixel_i (c : Fin 64) (r : Fin 32) : (s.xorPixel c r).i = s.i := by rw [State.xorPixel_eq]
@[simp] theorem State.xorPixel_pc (c : Fin 64) (r : Fin 32) : (s.xorPixel c r).pc = s.pc := by rw [State.xorPixel_eq]
@[simp] theorem State.xorPixel_sp (c : Fin 64) (r : Fin 32) : (s.xorPixel c r).sp = s.sp := by rw [State.xorPixel_eq]
@[simp] theorem State.xorPixel_stack (c : Fin 64) (r : Fin 32) : (s.xorPixel c r).stack = s.stack := by rw [State.xorPixel_eq]
@[simp] theorem State.xorPixel_dt (c : Fin 64) (r : Fin 32) : (s.xorPixel c r).dt = s.dt := by rw [State.xorPixel_eq]
@[simp] theorem State.xorPixel_st (c : Fin 64) (r : Fin 32) : (s.xorPixel c r).st = s.st := by rw [State.xorPixel_eq]
@[simp] theorem State.xorPixel_opc (c : Fin 64) (r : Fin 32) : (s.xorPixel c r).opc = s.opc := by rw [State.xorPixel_eq]
@[simp] theorem State.xorPixel_status (c : Fin 64) (r : Fin 32) : (s.xorPixel c r).status = s.status := by rw [State.xorPixel_eq]
@[simp] theorem State.xorPixel_keys (c : Fin 64) (r : Fin 32) : (s.xorPixel c r).keys = s.keys := by rw [State.xorPixel_eq]
@[simp] theorem State.xorPixel_rnd (c : Fin 64) (r : Fin 32) : (s.xorPixel c r).rnd = s.rnd := by rw [State.xorPixel_eq]
@[simp] theorem State.xorPixel_now (c : Fin 64) (r : Fin 32) : (s.xorPixel c r).now = s.now := by rw [State.xorPixel_eq]
@[simp] theorem State.xorPixel_dtGap (c : Fin 64) (r : Fin 32) : (s.xorPixel c r).dtGap = s.dtGap := by rw [State.xorPixel_eq]
@[simp] theorem State.xorPixel_stGap (c : Fin 64) (r : Fin 32) : (s.xorPixel c r).stGap = s.stGap := by rw [State.xorPixel_eq]

end

end Sys2Proof.Machine
end

