-- ==== Sys2Proof/Laws/Ops.lean ====
section
/-! SUPPORT. One lemma per shared operation, saying once everything it can do. -/

namespace Sys2Proof.Machine

/-! ### Loops -/

/-- What holds before a loop and is kept by each of its passes holds after it. -/
theorem forUpTo_induction {α : Type} {f : Nat → α → α} {s : α} (P : Nat → α → Prop) {n : Nat} (h0 : P 0 s)
    (hs : ∀ k t, k < n → P k t → P (k + 1) (f k t)) : P n (forUpTo n f s) := by
  induction n with
  | zero => exact h0
  | succ n ih => exact hs n _ (Nat.lt_succ_self n) (ih fun k t hk => hs k t (Nat.lt_succ_of_lt hk))

/-- A part of the state that no pass changes is the same after the loop. -/
theorem forUpTo_frame {α β : Type} {f : Nat → α → α} {s : α} (g : α → β) {n : Nat} (h : ∀ k t, g (f k t) = g t) :
    g (forUpTo n f s) = g s :=
  forUpTo_induction (fun _ t => g t = g s) rfl fun k t _ ht => by rw [h, ht]

/-! ### Registers and pixels -/

theorem State.getV_setV (s : State) (x y : Reg) (b : Byte) :
    (s.setV x b).getV y = if y = x then b else s.getV y := by
  simp only [State.getV, State.setV, Fin.getElem_fin, Vector.getElem_set, eq_comm (a := y), Fin.ext_iff]

@[simp] theorem State.getV_setV_same (s : State) (x : Reg) (b : Byte) : (s.setV x b).getV x = b := by
  simp [State.getV_setV]

theorem State.getV_setV_ne (s : State) {x y : Reg} (b : Byte) (h : y ≠ x) : (s.setV x b).getV y = s.getV y := by
  simp [State.getV_setV, h]

/-- Two states with the same registers read the same. -/
theorem State.getV_congr {s t : State} (h : s.v = t.v) (x : Reg) : s.getV x = t.getV x := by
  simp [State.getV, h]

/-- Two states with the same registers by number have the same register file. -/
theorem State.v_ext {s t : State} (h : ∀ x, s.getV x = t.getV x) : s.v = t.v :=
  Vector.ext fun i hi => by simpa [State.getV] using h ⟨i, hi⟩

theorem State.pixel_setPixel (s : State) (c c' : Fin 64) (r r' : Fin 32) (b : Bool) :
    (s.setPixel c r b).pixel c' r' = if c' = c ∧ r' = r then b else s.pixel c' r' := by
  simp only [State.pixel, State.setPixel, Fin.getElem_fin, Vector.getElem_set, Fin.ext_iff]
  by_cases hr : r'.val = r.val
  · by_cases hc : c'.val = c.val <;> simp [hr, hc, eq_comm (a := c.val)]
  · simp [hr, eq_comm (a := r.val)]

theorem State.pixel_congr {s t : State} (h : s.fb = t.fb) (c : Fin 64) (r : Fin 32) : s.pixel c r = t.pixel c r := by
  simp [State.pixel, h]

@[simp] theorem State.pixel_clearScreen (s : State) (c : Fin 64) (r : Fin 32) : s.clearScreen.pixel c r = false := by
  simp [State.pixel]

/-- The pixels after one set sprite bit: that one inverted (R162). -/
theorem State.pixel_xorPixel (s : State) (c c' : Fin 64) (r r' : Fin 32) :
    (s.xorPixel c r).pixel c' r' = (s.pixel c' r' ^^ decide (c' = c ∧ r' = r)) := by
  have h : ∀ t : State, t.fb = s.fb → (t.setPixel c r (!s.pixel c r)).pixel c' r' =
      (s.pixel c' r' ^^ decide (c' = c ∧ r' = r)) := fun t ht => by
    rw [State.pixel_setPixel, State.pixel_congr ht]
    by_cases hc : c' = c ∧ r' = r
    · obtain ⟨rfl, rfl⟩ := hc; simp
    · simp [hc]
  unfold State.xorPixel
  split <;> exact h _ rfl

/-- The registers after one set sprite bit: VF set if the pixel was on (R162). -/
theorem State.getV_xorPixel (s : State) (c : Fin 64) (r : Fin 32) (x : Reg) :
    (s.xorPixel c r).getV x = if x = vf ∧ s.pixel c r = true then 0x01#8 else s.getV x := by
  unfold State.xorPixel
  by_cases hp : s.pixel c r = true
  · simp only [hp, if_true, and_true]
    exact (State.getV_congr rfl x).trans (State.getV_setV s vf x 0x01#8)
  · rw [if_neg hp, if_neg (fun h => hp h.2)]; rfl

/-! ### Memory -/

theorem State.memRead_eq_some {s : State} {a : Nat} {b : Byte} :
    s.memRead a = some b ↔ a < memSize ∧ s.peek a = b := by
  unfold State.memRead State.peek
  split <;> simp <;> omega

theorem State.memRead_eq_none {s : State} {a : Nat} : s.memRead a = none ↔ memSize ≤ a := by
  unfold State.memRead
  split <;> simp <;> omega

theorem State.memWrite_eq_some {s t : State} {a : Nat} {b : Byte} :
    s.memWrite a b = some t ↔ a < memSize ∧ t = s.poke a b := by
  unfold State.poke State.memWrite
  split
  · next h => simp [Nat.not_lt.mpr h]
  · next h => simp [Nat.lt_of_not_le h, eq_comm (a := t)]

/-- Every byte of memory after one byte is written (R52, R62). -/
theorem State.peek_poke {s : State} (h : Memory.wf s.mem = true) (a a' : Nat) (b : Byte) :
    (s.poke a b).peek a' = if a' = a ∧ a < memSize then b else s.peek a' := by
  simp only [State.peek, State.poke_mem]
  by_cases ha : memSize ≤ a
  · rw [if_pos ha, if_neg (by omega)]
  · rw [if_neg ha]
    by_cases haa : a' = a
    · subst haa; rw [if_pos (by omega), Memory.read_write_same h]
    · rw [if_neg (by omega), Memory.read_write_ne haa]

theorem State.peek_congr {s t : State} (h : s.mem = t.mem) (a : Nat) : s.peek a = t.peek a := by
  simp [State.peek, h]

/-- A write keeps the canonical form. -/
theorem State.poke_wf {s : State} (h : Memory.wf s.mem = true) (a : Nat) (b : Byte) :
    Memory.wf (s.poke a b).mem = true := by
  rw [State.poke_mem]
  split
  · exact h
  · exact Memory.wf_write (by omega) h

/-! ### Transfers (R143-R145) -/

theorem State.effAddr_congr {s t : State} (h : s.i = t.i) (k : Nat) : s.effAddr k = t.effAddr k := by
  simp [State.effAddr, h]

/-- A block store writes memory only. -/
theorem State.storeBlock_frame (s : State) (n : Nat) : s.storeBlock n = { s with mem := (s.storeBlock n).mem } := by
  obtain ⟨m, hm⟩ : ∃ m, s.storeBlock n = { s with mem := m } :=
    forUpTo_induction (fun _ t => ∃ m, t = { s with mem := m }) ⟨_, rfl⟩ fun k t _ ⟨m, ht⟩ =>
      ⟨_, by rw [State.poke_eq, ht]⟩
  rw [hm]

/-- A block store keeps the canonical form. -/
theorem State.storeBlock_wf {s : State} (h : Memory.wf s.mem = true) (n : Nat) :
    Memory.wf (s.storeBlock n).mem = true :=
  forUpTo_induction (fun _ (t : State) => Memory.wf t.mem = true) h fun _ _ _ ht => State.poke_wf ht _ _

/-- Every byte of memory after a block store: V0, V1, ... from I up, the rest as before (R144). -/
theorem State.peek_storeBlock {s : State} (h : Memory.wf s.mem = true) {n : Nat} (hr : s.i.toNat + n ≤ 4096)
    (a : Nat) : (s.storeBlock n).peek a =
      if s.i.toNat ≤ a ∧ a < s.i.toNat + n then s.getV (blockReg (a - s.i.toNat)) else s.peek a := by
  have key := forUpTo_induction (n := n) (s := s)
    (f := fun k s => s.poke (s.effAddr k) (s.getV (blockReg k)))
    (fun m t => t.i = s.i ∧ t.v = s.v ∧ Memory.wf t.mem = true ∧ ∀ a, t.peek a =
      if s.i.toNat ≤ a ∧ a < s.i.toNat + m then s.getV (blockReg (a - s.i.toNat)) else s.peek a)
    ⟨rfl, rfl, h, fun a => by rw [if_neg (by omega)]⟩
    fun k t hk ⟨hi, hv, hw, hp⟩ => by
      refine ⟨by simpa using hi, by simpa using hv, State.poke_wf hw _ _, fun a => ?_⟩
      rw [State.peek_poke hw, hp, State.getV_congr hv, State.effAddr_congr hi]
      have ek : s.effAddr k = s.i.toNat + k := rfl
      have hm : memSize = 4096 := rfl
      by_cases ha : a = s.effAddr k
      · rw [if_pos ⟨ha, by omega⟩, if_pos (by omega), show a - s.i.toNat = k by omega]
      · rw [if_neg (by omega)]
        by_cases hb : s.i.toNat ≤ a ∧ a < s.i.toNat + k
        · rw [if_pos hb, if_pos (by omega)]
        · rw [if_neg hb, if_neg (by omega)]
  exact key.2.2.2 a

/-- The store of three digits writes memory only. -/
theorem State.storeBcd_frame (s : State) (b : Byte) : s.storeBcd b = { s with mem := (s.storeBcd b).mem } := by
  simp [State.storeBcd, State.poke_eq]

theorem State.storeBcd_wf {s : State} (h : Memory.wf s.mem = true) (b : Byte) :
    Memory.wf (s.storeBcd b).mem = true :=
  State.poke_wf (State.poke_wf (State.poke_wf h _ _) _ _) _ _

/-- Every byte of memory after the store of three digits (R143). -/
theorem State.peek_storeBcd {s : State} (h : Memory.wf s.mem = true) (hr : s.i.toNat + 2 < 4096) (b : Byte)
    (a : Nat) : (s.storeBcd b).peek a =
      if a = s.i.toNat + 2 then ones b else if a = s.i.toNat + 1 then tens b
      else if a = s.i.toNat then hundreds b else s.peek a := by
  have e : s.storeBcd b =
      ((s.poke s.i.toNat (hundreds b)).poke (s.i.toNat + 1) (tens b)).poke (s.i.toNat + 2) (ones b) := rfl
  have hm : memSize = 4096 := rfl
  rw [e, State.peek_poke (State.poke_wf (State.poke_wf h _ _) _ _), State.peek_poke (State.poke_wf h _ _),
    State.peek_poke h]
  simp [hm, hr, show s.i.toNat + 1 < 4096 by omega, show s.i.toNat < 4096 by omega]

/-- A block load writes registers only. -/
theorem State.loadBlock_frame (s : State) (n : Nat) : s.loadBlock n = { s with v := (s.loadBlock n).v } := by
  obtain ⟨v, hv⟩ : ∃ v, s.loadBlock n = { s with v := v } :=
    forUpTo_induction (fun _ t => ∃ v, t = { s with v := v }) ⟨_, rfl⟩ fun k t _ ⟨v, ht⟩ => ⟨_, by rw [ht]; rfl⟩
  rw [hv]

/-- Every register after a block load: the bytes from I up in V0, V1, ..., the rest as before (R145). -/
theorem State.getV_loadBlock (s : State) {n : Nat} (hn : n ≤ 16) (x : Reg) :
    (s.loadBlock n).getV x = if x.val < n then s.peek (s.i.toNat + x.val) else s.getV x := by
  have key := forUpTo_induction (n := n) (s := s)
    (f := fun k s => s.setV (blockReg k) (s.peek (s.effAddr k)))
    (fun m t => t.mem = s.mem ∧ t.i = s.i ∧ ∀ x : Reg, t.getV x =
      if x.val < m then s.peek (s.effAddr x.val) else s.getV x)
    ⟨rfl, rfl, fun x => by simp⟩
    fun k t hk ⟨hm, hi, hp⟩ => by
      refine ⟨hm, hi, fun x => ?_⟩
      rw [State.getV_setV, hp, State.peek_congr hm, State.effAddr_congr hi]
      have hk' : (blockReg k).val = k := by simp [blockReg]; omega
      by_cases hx : x = blockReg k
      · subst hx; rw [if_pos rfl, if_pos (by omega), hk']
      · have hne : x.val ≠ k := fun e => hx (Fin.ext (by omega))
        rw [if_neg hx]
        by_cases hl : x.val < k
        · rw [if_pos hl, if_pos (by omega)]
        · rw [if_neg hl, if_neg (by omega)]
  exact key.2.2 x

/-! ### The stack (R102, R104) -/

theorem State.push_of_lt {s : State} (w : Word) (h : s.sp.val < 16) :
    s.push w = some { s with sp := ⟨s.sp.val + 1, by omega⟩, stack := s.stack.set s.sp.val w h } := by
  simp [State.push, h]

theorem State.push_of_full {s : State} (w : Word) (h : s.sp.val = 16) : s.push w = none := by
  simp [State.push, h]

theorem State.pop_of_empty {s : State} (h : s.sp.val = 0) : s.pop = none := by
  simp [State.pop, h]

theorem State.pop_of_pos {s : State} (h : s.sp.val ≠ 0) :
    s.pop = some (s.stack[s.sp.val - 1]'(by omega), { s with sp := ⟨s.sp.val - 1, by omega⟩ }) := by
  simp [State.pop, h]

/-! ### Drawing (R162) -/

/-- One sprite row writes registers and the screen only. -/
theorem State.drawRow_frame (s : State) (x0 : Nat) (r : Fin 32) (row : Byte) :
    ∃ v fb, s.drawRow x0 r row = { s with v := v, fb := fb } :=
  forUpTo_induction (fun _ t => ∃ v fb, t = { s with v := v, fb := fb }) ⟨_, _, rfl⟩ fun k t _ ⟨v, fb, ht⟩ => by
    split
    · exact ⟨_, _, by rw [State.xorPixel_eq, ht]⟩
    · exact ⟨v, fb, ht⟩

/-- A sprite writes registers and the screen only. -/
theorem State.drawSprite_frame (s : State) (a x0 y0 n : Nat) :
    ∃ v fb, s.drawSprite a x0 y0 n = { s with v := v, fb := fb } :=
  forUpTo_induction (fun _ t => ∃ v fb, t = { s with v := v, fb := fb }) ⟨_, _, rfl⟩ fun k t _ ⟨v, fb, ht⟩ => by
    obtain ⟨v', fb', h⟩ := t.drawRow_frame x0 (Fin.ofNat 32 (y0 + k)) (t.peek (a + k))
    exact ⟨v', fb', by rw [h, ht]⟩

/-- One sprite row changes no register but VF. -/
theorem State.getV_drawRow_ne (s : State) (x0 : Nat) (r : Fin 32) (row : Byte) {x : Reg} (h : x ≠ vf) :
    (s.drawRow x0 r row).getV x = s.getV x :=
  forUpTo_frame (fun t : State => t.getV x) fun k t => by
    split
    · rw [State.getV_xorPixel]; simp [h]
    · rfl

/-- A sprite changes no register but VF. -/
theorem State.getV_drawSprite_ne (s : State) (a x0 y0 n : Nat) {x : Reg} (h : x ≠ vf) :
    (s.drawSprite a x0 y0 n).getV x = s.getV x :=
  forUpTo_frame (fun t : State => t.getV x) fun _ t => t.getV_drawRow_ne _ _ _ h

/-! ### The cycle (R90, R91, R95) -/

/-- The fetch inside memory: the two bytes from PC, big-endian. -/
theorem State.fetch_of_lt {s : State} (h : s.pc.toNat + 1 < memSize) :
    s.fetch = some (wordOfBytes (s.peek s.pc.toNat) (s.peek (s.pc.toNat + 1))) := by
  have h1 : s.memRead s.pc.toNat = some (s.peek s.pc.toNat) := State.memRead_eq_some.mpr ⟨by omega, rfl⟩
  have h2 : s.memRead (s.pc.toNat + 1) = some (s.peek (s.pc.toNat + 1)) := State.memRead_eq_some.mpr ⟨h, rfl⟩
  simp only [State.fetch, h1, h2, wordOfBytes]

/-- The fetch fault: PC at 0xFFF or above. -/
theorem State.fetch_of_ge {s : State} (h : memSize ≤ s.pc.toNat + 1) : s.fetch = none := by
  have h2 : s.memRead (s.pc.toNat + 1) = none := State.memRead_eq_none.mpr h
  unfold State.fetch
  rw [h2]
  split <;> first | rfl | simp_all

/-- A step request to a halted core does nothing (R95). -/
theorem stepRequest_of_halted (r : AmbiguousDecode) {s : State} (h : s.status ≠ .running) :
    stepRequest r s = .next s := by
  unfold stepRequest
  split
  · next hs => exact absurd hs h
  · rfl
  · rfl

/-- A step request to a running core runs one instruction (R90). -/
theorem stepRequest_of_running (r : AmbiguousDecode) {s : State} (h : s.status = .running) :
    stepRequest r s = runInstruction r s := by
  unfold stepRequest
  rw [h]

/-- Everything one step can do, after the boundary: a halted core does nothing more; a running one takes the fetch fault,
or runs what it fetched after the advance. -/
theorem stepWith_cases (r : AmbiguousDecode) (s : State) :
    (s.status ≠ .running ∧ stepWith r s = .next s.boundary) ∨
    (s.status = .running ∧ memSize ≤ s.pc.toNat + 1 ∧ stepWith r s = .next s.boundary.raiseFetch) ∨
    (s.status = .running ∧ s.pc.toNat + 1 < memSize ∧
      ∃ op, op = wordOfBytes (s.peek s.pc.toNat) (s.peek (s.pc.toNat + 1)) ∧
        stepWith r s = execDecoded (decodeWord r op) (s.boundary.advance op)) := by
  unfold stepWith
  by_cases hs : s.status = .running
  · right
    rw [stepRequest_of_running r (show s.boundary.status = .running from hs)]
    by_cases h : memSize ≤ s.pc.toNat + 1
    · left
      exact ⟨hs, h, by simp [runInstruction, State.fetch_of_ge (s := s.boundary) h]⟩
    · right
      exact ⟨hs, by omega, _, rfl, by
        simp only [runInstruction,
          State.fetch_of_lt (s := s.boundary) (show s.boundary.pc.toNat + 1 < memSize by simp; omega)]
        rfl⟩
  · exact .inl ⟨hs, stepRequest_of_halted r (show s.boundary.status ≠ .running from hs)⟩

end Sys2Proof.Machine
end

