-- ==== Sys2Proof/Laws/Display.lean ====
section
/-! SUPPORT. What drawing does to every pixel and to VF (spec R162). -/

namespace Sys2Proof.Machine

/-- The range check of `DRW`, as a fact about numbers (R162). -/
theorem State.spriteInRange_iff {s : State} {n : Nat} :
    s.spriteInRange n = true ↔ n = 0 ∨ s.i.toNat + n ≤ 4096 := by
  unfold State.spriteInRange State.effAddr memSize
  rw [Bool.or_eq_true, beq_iff_eq, decide_eq_true_iff]
  omega

/-- A set bit among the first `m` columns of a sprite row drawn from column `x0` lands on column `c` (R162). -/
def rowLands (x0 : Nat) (row : Byte) (m : Nat) (c : Fin 64) : Prop :=
  ∃ b, b < m ∧ spriteBit row b = true ∧ c = Fin.ofNat 64 (x0 + b)

theorem rowLands_succ (x0 : Nat) (row : Byte) (m : Nat) (c : Fin 64) :
    rowLands x0 row (m + 1) c ↔ rowLands x0 row m c ∨ (spriteBit row m = true ∧ c = Fin.ofNat 64 (x0 + m)) := by
  constructor
  · rintro ⟨b, hb, h1, h2⟩
    by_cases e : b = m
    · subst e; exact .inr ⟨h1, h2⟩
    · exact .inl ⟨b, by omega, h1, h2⟩
  · rintro (⟨b, hb, h⟩ | h)
    · exact ⟨b, by omega, h⟩
    · exact ⟨m, by omega, h⟩

theorem not_rowLands_self (x0 : Nat) (row : Byte) {m : Nat} (hm : m < 8) : ¬ rowLands x0 row m (Fin.ofNat 64 (x0 + m)) := by
  rintro ⟨b, hb, -, h⟩
  have := congrArg Fin.val h
  simp only [Fin.ofNat] at this
  omega

/-- Every pixel, and VF, after one sprite row (R162). -/
theorem State.drawRow_effect (s : State) (x0 : Nat) (r : Fin 32) (row : Byte) :
    (∀ (c : Fin 64) (r' : Fin 32), (r' = r ∧ rowLands x0 row 8 c → (s.drawRow x0 r row).pixel c r' = !s.pixel c r') ∧
      (¬ (r' = r ∧ rowLands x0 row 8 c) → (s.drawRow x0 r row).pixel c r' = s.pixel c r')) ∧
    ((∃ c, rowLands x0 row 8 c ∧ s.pixel c r = true) → (s.drawRow x0 r row).getV vf = 0x01#8) ∧
    ((∀ c, rowLands x0 row 8 c → s.pixel c r = false) → (s.drawRow x0 r row).getV vf = s.getV vf) := by
  refine forUpTo_induction (n := 8) (s := s)
    (f := fun b s => if spriteBit row b then s.xorPixel (Fin.ofNat 64 (x0 + b)) r else s)
    (fun m t => (∀ (c : Fin 64) (r' : Fin 32), (r' = r ∧ rowLands x0 row m c → t.pixel c r' = !s.pixel c r') ∧
      (¬ (r' = r ∧ rowLands x0 row m c) → t.pixel c r' = s.pixel c r')) ∧
    ((∃ c, rowLands x0 row m c ∧ s.pixel c r = true) → t.getV vf = 0x01#8) ∧
    ((∀ c, rowLands x0 row m c → s.pixel c r = false) → t.getV vf = s.getV vf)) ?_ ?_
  · refine ⟨fun c r' => ⟨?_, fun _ => rfl⟩, ?_, fun _ => rfl⟩
    · rintro ⟨-, b, hb, -⟩; omega
    · rintro ⟨c, ⟨b, hb, -⟩, -⟩; omega
  · rintro k t hk ⟨h1, h2, h3⟩
    simp only [rowLands_succ]
    by_cases hb : spriteBit row k = true
    · simp only [hb, if_true, true_and]
      have hn := not_rowLands_self x0 row hk
      have hp : t.pixel (Fin.ofNat 64 (x0 + k)) r = s.pixel (Fin.ofNat 64 (x0 + k)) r := (h1 _ _).2 fun h => hn h.2
      refine ⟨fun c r' => ?_, ?_, ?_⟩
      · rw [State.pixel_xorPixel]
        by_cases hc : c = Fin.ofNat 64 (x0 + k) ∧ r' = r
        · obtain ⟨rfl, rfl⟩ := hc
          rw [hp]
          exact ⟨fun _ => by simp, fun h => absurd ⟨rfl, .inr rfl⟩ h⟩
        · rw [decide_eq_false hc, Bool.xor_false]
          refine ⟨?_, fun h => (h1 c r').2 fun h' => h ⟨h'.1, .inl h'.2⟩⟩
          rintro ⟨e, h | h⟩
          · exact (h1 c r').1 ⟨e, h⟩
          · exact absurd ⟨h, e⟩ hc
      · rintro ⟨c, h | rfl, hs⟩
        · rw [State.getV_xorPixel, h2 ⟨c, h, hs⟩]; simp
        · rw [State.getV_xorPixel, hp, if_pos ⟨rfl, hs⟩]
      · intro h
        rw [State.getV_xorPixel, hp, if_neg, h3 fun c hc => h c (.inl hc)]
        rw [h _ (.inr rfl)]; simp
    · rw [if_neg hb]
      simp only [hb, Bool.false_eq_true, false_and, or_false]
      exact ⟨h1, h2, h3⟩

/-- A set bit of the first `n` sprite rows lands on pixel (c, r) (R162). -/
def spriteLands (s : State) (a x0 y0 n : Nat) (c : Fin 64) (r : Fin 32) : Prop :=
  ∃ k, k < n ∧ r = Fin.ofNat 32 (y0 + k) ∧ rowLands x0 (s.peek (a + k)) 8 c

theorem spriteLands_succ (s : State) (a x0 y0 n : Nat) (c : Fin 64) (r : Fin 32) :
    spriteLands s a x0 y0 (n + 1) c r ↔ spriteLands s a x0 y0 n c r ∨
      (r = Fin.ofNat 32 (y0 + n) ∧ rowLands x0 (s.peek (a + n)) 8 c) := by
  constructor
  · rintro ⟨k, hk, h⟩
    by_cases e : k = n
    · subst e; exact .inr h
    · exact .inl ⟨k, by omega, h⟩
  · rintro (⟨k, hk, h⟩ | h)
    · exact ⟨k, by omega, h⟩
    · exact ⟨n, by omega, h⟩

/-- Every pixel, and VF, after a sprite of at most 32 rows (R162). -/
theorem State.drawSprite_effect (s : State) (a x0 y0 : Nat) {n : Nat} (hn : n ≤ 32) :
    (∀ (c : Fin 64) (r : Fin 32), (spriteLands s a x0 y0 n c r → (s.drawSprite a x0 y0 n).pixel c r = !s.pixel c r) ∧
      (¬ spriteLands s a x0 y0 n c r → (s.drawSprite a x0 y0 n).pixel c r = s.pixel c r)) ∧
    ((∃ c r, spriteLands s a x0 y0 n c r ∧ s.pixel c r = true) → (s.drawSprite a x0 y0 n).getV vf = 0x01#8) ∧
    ((∀ c r, spriteLands s a x0 y0 n c r → s.pixel c r = false) →
      (s.drawSprite a x0 y0 n).getV vf = s.getV vf) := by
  refine (forUpTo_induction (n := n) (s := s)
    (f := fun r s => s.drawRow x0 (Fin.ofNat 32 (y0 + r)) (s.peek (a + r)))
    (fun m t => t.mem = s.mem ∧ (∀ (c : Fin 64) (r : Fin 32), (spriteLands s a x0 y0 m c r → t.pixel c r = !s.pixel c r) ∧
      (¬ spriteLands s a x0 y0 m c r → t.pixel c r = s.pixel c r)) ∧
    ((∃ c r, spriteLands s a x0 y0 m c r ∧ s.pixel c r = true) → t.getV vf = 0x01#8) ∧
    ((∀ c r, spriteLands s a x0 y0 m c r → s.pixel c r = false) → t.getV vf = s.getV vf)) ?_ ?_).2
  · refine ⟨rfl, fun c r => ⟨?_, fun _ => rfl⟩, ?_, fun _ => rfl⟩
    · rintro ⟨b, hb, -⟩; omega
    · rintro ⟨c, r, ⟨b, hb, -⟩, -⟩; omega
  · rintro k t hk ⟨hm, h1, h2, h3⟩
    simp only [spriteLands_succ]
    rw [State.peek_congr hm]
    have hmem : (t.drawRow x0 (Fin.ofNat 32 (y0 + k)) (s.peek (a + k))).mem = s.mem := by
      obtain ⟨v, fb, e⟩ := t.drawRow_frame x0 (Fin.ofNat 32 (y0 + k)) (s.peek (a + k))
      rw [e]; exact hm
    have hrow : ∀ c, ¬ spriteLands s a x0 y0 k c (Fin.ofNat 32 (y0 + k)) := by
      rintro c ⟨j, hj, h, -⟩
      have := congrArg Fin.val h
      simp only [Fin.ofNat] at this
      omega
    have hp : ∀ c, t.pixel c (Fin.ofNat 32 (y0 + k)) = s.pixel c (Fin.ofNat 32 (y0 + k)) := fun c => (h1 c _).2 (hrow c)
    obtain ⟨d1, d2, d3⟩ := t.drawRow_effect x0 (Fin.ofNat 32 (y0 + k)) (s.peek (a + k))
    refine ⟨hmem, fun c r => ?_, ?_, ?_⟩
    · by_cases hc : r = Fin.ofNat 32 (y0 + k) ∧ rowLands x0 (s.peek (a + k)) 8 c
      · rw [(d1 c r).1 hc]
        refine ⟨fun _ => ?_, fun h => absurd (.inr hc) h⟩
        rw [hc.1, hp]
      · rw [(d1 c r).2 hc]
        exact ⟨fun h => (h1 c r).1 (h.resolve_right hc), fun h => (h1 c r).2 fun h' => h (.inl h')⟩
    · rintro ⟨c, r, h | ⟨rfl, h⟩, hs⟩
      · by_cases hx : ∃ c, rowLands x0 (s.peek (a + k)) 8 c ∧ t.pixel c (Fin.ofNat 32 (y0 + k)) = true
        · exact d2 hx
        · rw [d3, h2 ⟨c, r, h, hs⟩]
          intro c' hc'
          by_contra hf
          exact hx ⟨c', hc', by simpa using hf⟩
      · exact d2 ⟨c, h, by rw [hp]; exact hs⟩
    · intro h
      rw [d3, h3 fun c r hc => h c r (.inl hc)]
      intro c hc
      rw [hp]; exact h c _ (.inr ⟨rfl, hc⟩)
end Sys2Proof.Machine
end

