-- ==== Sys2Proof/Laws/Flags.lean ====
section
/-! SUPPORT. The ALU's results and flags, and the timer countdown, as numbers (spec R120, R177). -/

namespace Sys2Proof.Machine

@[simp] theorem toNat_trunc8 (n : Nat) : (trunc8 n).toNat = n % 256 := by simp [trunc8]

@[simp] theorem toNat_trunc16 (n : Nat) : (trunc16 n).toNat = n % 65536 := by simp [trunc16]

@[simp] theorem toNat_flagByte (b : Bool) : (flagByte b).toNat = if b then 1 else 0 := by cases b <;> rfl

theorem toNat_carryFlag (n : Nat) : (carryFlag n).toNat = if 255 < n then 1 else 0 := by
  by_cases h : 255 < n <;> simp [carryFlag, h]

theorem toNat_noBorrowFlag (a b : Byte) : (noBorrowFlag a b).toNat = if b.toNat < a.toNat then 1 else 0 := by
  by_cases h : b.toNat < a.toNat <;> simp [noBorrowFlag, h]

theorem toNat_sub8 (a b : Byte) : (sub8 a b).toNat = (a.toNat + 256 - b.toNat) % 256 := by simp [sub8]

theorem sub8_self (a : Byte) : sub8 a a = 0x00#8 := by
  apply BitVec.eq_of_toNat_eq
  simp [toNat_sub8]

theorem toNat_shrFlag (a : Byte) : (shrFlag a).toNat = a.toNat % 2 := by simp [shrFlag, Nat.and_one_is_mod]

theorem toNat_shr8 (a : Byte) : (shr8 a).toNat = a.toNat / 2 := by simp [shr8, Nat.shiftRight_eq_div_pow]

theorem toNat_shlFlag (a : Byte) : (shlFlag a).toNat = a.toNat / 128 := by
  simp [shlFlag, Nat.shiftRight_eq_div_pow]

theorem toNat_shl8 (a : Byte) : (shl8 a).toNat = a.toNat * 2 % 256 := by simp [shl8, Nat.shiftLeft_eq]

/-- A byte that is not zero is a positive number. -/
theorem toNat_pos_of_ne {t : Byte} (h : t ≠ 0x00#8) : 0 < t.toNat :=
  Nat.pos_of_ne_zero fun e => h (BitVec.eq_of_toNat_eq (by simpa using e))

/-- One timer under a tick, as numbers: never below zero (R177). -/
theorem toNat_countDown (t : Byte) (b : Bool) : (countDown t b).toNat = if b then t.toNat - 1 else t.toNat := by
  unfold countDown
  by_cases h : t = 0x00#8
  · cases b <;> simp [h]
  · have h1 := toNat_pos_of_ne h
    have h2 := t.isLt
    cases b <;> simp [h]
    omega

end Sys2Proof.Machine
end

