-- ==== Sys2Proof/Laws/PerInstr.lean ====
section
/-! SUPPORT. Statements made once per instruction: the word of each lies in its row of the opcode map (spec R74). -/

namespace Sys2Proof.Laws

/-- The word of `i` has the fixed digits of its row: under the row's mask it is the row's match (R74). -/
def RowMatch.Statement (i : Instr) : Prop := encode i &&& rowMask i = rowMatch i

/-! ### The three formats under their masks (R71) -/

theorem RowMatch.encAddr_mask (fam : BitVec 4) (nnn : Addr12) : encAddr fam nnn &&& 0xF000#16 = fam ++ 0#12 := by
  show (fam ++ nnn) &&& (BitVec.allOnes 4 ++ 0#12) = fam ++ 0#12
  rw [BitVec.and_append]; simp only [BitVec.and_allOnes, BitVec.and_zero]

theorem RowMatch.encImm_mask (fam : BitVec 4) (x : Reg) (nn : Byte) :
    encImm fam x nn &&& 0xF000#16 = fam ++ 0#12 := RowMatch.encAddr_mask fam _

theorem RowMatch.encImm_maskByte (fam : BitVec 4) (x : Reg) (nn : Byte) :
    encImm fam x nn &&& 0xF0FF#16 = fam ++ (0#4 ++ nn) := by
  show (fam ++ (regField x ++ nn)) &&& (BitVec.allOnes 4 ++ (0#4 ++ BitVec.allOnes 8)) = fam ++ (0#4 ++ nn)
  rw [BitVec.and_append, BitVec.and_append]; simp only [BitVec.and_allOnes, BitVec.and_zero]

theorem RowMatch.encReg_mask (fam : BitVec 4) (x y : Reg) (n : BitVec 4) :
    encReg fam x y n &&& 0xF00F#16 = fam ++ (0#4 ++ (0#4 ++ n)) := by
  show (fam ++ (regField x ++ (regField y ++ n))) &&& (BitVec.allOnes 4 ++ (0#4 ++ (0#4 ++ BitVec.allOnes 4))) =
    fam ++ (0#4 ++ (0#4 ++ n))
  rw [BitVec.and_append, BitVec.and_append, BitVec.and_append]; simp only [BitVec.and_allOnes, BitVec.and_zero]

theorem RowMatch.encReg_maskFam (fam : BitVec 4) (x y : Reg) (n : BitVec 4) :
    encReg fam x y n &&& 0xF000#16 = fam ++ 0#12 := RowMatch.encAddr_mask fam _

/-! ### Every constructor -/

theorem RowMatch.cls : RowMatch.Statement .cls := rfl
theorem RowMatch.ret : RowMatch.Statement .ret := rfl
theorem RowMatch.jp (nnn : Addr12) : RowMatch.Statement (.jp nnn) := RowMatch.encAddr_mask _ nnn
theorem RowMatch.call (nnn : Addr12) : RowMatch.Statement (.call nnn) := RowMatch.encAddr_mask _ nnn
theorem RowMatch.seImm (x : Reg) (nn : Byte) : RowMatch.Statement (.seImm x nn) := RowMatch.encImm_mask _ x nn
theorem RowMatch.sneImm (x : Reg) (nn : Byte) : RowMatch.Statement (.sneImm x nn) := RowMatch.encImm_mask _ x nn
theorem RowMatch.seReg (x : Reg) (y : Reg) : RowMatch.Statement (.seReg x y) := RowMatch.encReg_mask _ x y _
theorem RowMatch.ldImm (x : Reg) (nn : Byte) : RowMatch.Statement (.ldImm x nn) := RowMatch.encImm_mask _ x nn
theorem RowMatch.addImm (x : Reg) (nn : Byte) : RowMatch.Statement (.addImm x nn) := RowMatch.encImm_mask _ x nn
theorem RowMatch.ldReg (x : Reg) (y : Reg) : RowMatch.Statement (.ldReg x y) := RowMatch.encReg_mask _ x y _
theorem RowMatch.orReg (x : Reg) (y : Reg) : RowMatch.Statement (.orReg x y) := RowMatch.encReg_mask _ x y _
theorem RowMatch.andReg (x : Reg) (y : Reg) : RowMatch.Statement (.andReg x y) := RowMatch.encReg_mask _ x y _
theorem RowMatch.xorReg (x : Reg) (y : Reg) : RowMatch.Statement (.xorReg x y) := RowMatch.encReg_mask _ x y _
theorem RowMatch.addReg (x : Reg) (y : Reg) : RowMatch.Statement (.addReg x y) := RowMatch.encReg_mask _ x y _
theorem RowMatch.subReg (x : Reg) (y : Reg) : RowMatch.Statement (.subReg x y) := RowMatch.encReg_mask _ x y _
theorem RowMatch.shr (x : Reg) (y : Reg) : RowMatch.Statement (.shr x y) := RowMatch.encReg_mask _ x y _
theorem RowMatch.subnReg (x : Reg) (y : Reg) : RowMatch.Statement (.subnReg x y) := RowMatch.encReg_mask _ x y _
theorem RowMatch.shl (x : Reg) (y : Reg) : RowMatch.Statement (.shl x y) := RowMatch.encReg_mask _ x y _
theorem RowMatch.sneReg (x : Reg) (y : Reg) : RowMatch.Statement (.sneReg x y) := RowMatch.encReg_mask _ x y _
theorem RowMatch.ldI (nnn : Addr12) : RowMatch.Statement (.ldI nnn) := RowMatch.encAddr_mask _ nnn
theorem RowMatch.jpV0 (nnn : Addr12) : RowMatch.Statement (.jpV0 nnn) := RowMatch.encAddr_mask _ nnn
theorem RowMatch.rnd (x : Reg) (nn : Byte) : RowMatch.Statement (.rnd x nn) := RowMatch.encImm_mask _ x nn
theorem RowMatch.drw (x : Reg) (y : Reg) (n : BitVec 4) : RowMatch.Statement (.drw x y n) := RowMatch.encReg_maskFam _ x y n
theorem RowMatch.skp (x : Reg) : RowMatch.Statement (.skp x) := RowMatch.encImm_maskByte _ x _
theorem RowMatch.sknp (x : Reg) : RowMatch.Statement (.sknp x) := RowMatch.encImm_maskByte _ x _
theorem RowMatch.ldVxDt (x : Reg) : RowMatch.Statement (.ldVxDt x) := RowMatch.encImm_maskByte _ x _
theorem RowMatch.ldVxK (x : Reg) : RowMatch.Statement (.ldVxK x) := RowMatch.encImm_maskByte _ x _
theorem RowMatch.ldDtVx (x : Reg) : RowMatch.Statement (.ldDtVx x) := RowMatch.encImm_maskByte _ x _
theorem RowMatch.ldStVx (x : Reg) : RowMatch.Statement (.ldStVx x) := RowMatch.encImm_maskByte _ x _
theorem RowMatch.addI (x : Reg) : RowMatch.Statement (.addI x) := RowMatch.encImm_maskByte _ x _
theorem RowMatch.ldF (x : Reg) : RowMatch.Statement (.ldF x) := RowMatch.encImm_maskByte _ x _
theorem RowMatch.ldB (x : Reg) : RowMatch.Statement (.ldB x) := RowMatch.encImm_maskByte _ x _
theorem RowMatch.storeRegs (x : Reg) : RowMatch.Statement (.storeRegs x) := RowMatch.encImm_maskByte _ x _
theorem RowMatch.loadRegs (x : Reg) : RowMatch.Statement (.loadRegs x) := RowMatch.encImm_maskByte _ x _
theorem RowMatch.sys (nnn : Addr12) : RowMatch.Statement (.sys nnn) := RowMatch.encAddr_mask _ nnn

end Sys2Proof.Laws
end

