-- ==== Sys2Proof/Tests/Slice0.lean ====
section
/-! SUPPORT. The model's own tests. Expected results come from the spec: its derived vectors (T-numbers of
95_test_vectors), its worked examples, or a hand calculation from the rule named. Then one witness for the hypotheses of
each obligation that has any. -/

namespace Sys2Proof.Tests

open Sys2Proof.Machine Sys2Proof.Claims

/-! ### Helpers -/

/-- What `f` reads of the next state; none for any other outcome. -/
def obs {α : Type} (f : State → α) : Host.Outcome State Fault Refusal → Option α
  | .next t => some (f t)
  | .fault _ => none
  | .refused _ => none

/-- Fetch, advance, decode and execute the word `w` placed at PC, with the inputs that `s` holds (R90). -/
def runWord (r : AmbiguousDecode) (w : Word) (s : State) : Host.Outcome State Fault Refusal :=
  runInstruction r (s.placeWord w)

/-- After the load, with V1 and V2 set. -/
def v12 (a b : Byte) : State := (State.reset.setV 1 a).setV 2 b

/-- After the load, with V1 and VF set. -/
def v1f (a b : Byte) : State := (State.reset.setV 1 a).setV 15 b

/-- After the load, with V3 and V4 set. -/
def v34 (a b : Byte) : State := (State.reset.setV 3 a).setV 4 b

/-- After the load, with exactly the listed keys down. -/
def withKeys (ks : List (Fin 16)) : State :=
  { State.reset with keys := Vector.ofFn fun k => ks.contains k }

/-- V1, VF and the low bits of what an ALU word leaves. -/
def v1AndFlag (o : Host.Outcome State Fault Refusal) : Option (Byte × Byte) := obs (fun t => (t.getV 1, t.getV 15)) o

/-- PC after the word. -/
def pcAfter (o : Host.Outcome State Fault Refusal) : Option Word := obs (fun t => t.pc) o

/-! ### WellFormed -/

/-- R74, R75: `SYS` with a low byte of E0 or EE is no word of its row; every other field value is. -/
theorem test_wf_sys : (Instr.sys 0x0E0#12).wf = false ∧ (Instr.sys 0x1E0#12).wf = false ∧
    (Instr.sys 0x0EE#12).wf = false ∧ (Instr.sys 0xFEE#12).wf = false ∧ (Instr.sys 0x123#12).wf = true ∧
    (Instr.sys 0x0EF#12).wf = true := by decide

/-- The other operands are of types that hold exactly their fields' values, so nothing else is ill-formed (R72). -/
theorem test_wf_others : Instr.cls.wf = true ∧ (Instr.drw 15 15 15#4).wf = true ∧ (Instr.jp 0xFFF#12).wf = true ∧
    (Instr.shr 3 7).wf = true := by decide

/-! ### Decoding and encoding: words written out from the patterns of R74 -/

/-- Families 0 to 2: 00E0, 00EE, 0nnn, 1nnn, 2nnn. -/
theorem test_decode_fam012 : decodeWord .refuse 0b0000000011100000#16 = .instr .cls ∧
    decodeWord .refuse 0b0000000011101110#16 = .instr .ret ∧
    decodeWord .refuse 0b0000000100100011#16 = .instr (.sys 0x123#12) ∧
    decodeWord .refuse 0b0001101010111100#16 = .instr (.jp 0xABC#12) ∧
    decodeWord .refuse 0b0010001000010000#16 = .instr (.call 0x210#12) := by decide

/-- Families 3 to 7 and 9: 3xnn, 4xnn, 5xy0, 6xnn, 7xnn, 9xy0. -/
theorem test_decode_fam345679 : decodeWord .refuse 0b0011000101000010#16 = .instr (.seImm 1 0x42#8) ∧
    decodeWord .refuse 0b0100001000000101#16 = .instr (.sneImm 2 0x05#8) ∧
    decodeWord .refuse 0b0101001101000000#16 = .instr (.seReg 3 4) ∧
    decodeWord .refuse 0b0110101001011100#16 = .instr (.ldImm 10 0x5C#8) ∧
    decodeWord .refuse 0b0111000111111111#16 = .instr (.addImm 1 0xFF#8) ∧
    decodeWord .refuse 0b1001001101000000#16 = .instr (.sneReg 3 4) := by decide

/-- Family 8: 8xy0 to 8xy7 and 8xyE. -/
theorem test_decode_fam8 : decodeWord .refuse 0b1000000100100000#16 = .instr (.ldReg 1 2) ∧
    decodeWord .refuse 0b1000000100100001#16 = .instr (.orReg 1 2) ∧
    decodeWord .refuse 0b1000000100100010#16 = .instr (.andReg 1 2) ∧
    decodeWord .refuse 0b1000000100100011#16 = .instr (.xorReg 1 2) ∧
    decodeWord .refuse 0b1000000100100100#16 = .instr (.addReg 1 2) ∧
    decodeWord .refuse 0b1000000100100101#16 = .instr (.subReg 1 2) ∧
    decodeWord .refuse 0b1000000100100110#16 = .instr (.shr 1 2) ∧
    decodeWord .refuse 0b1000000100100111#16 = .instr (.subnReg 1 2) ∧
    decodeWord .refuse 0b1000000100101110#16 = .instr (.shl 1 2) := by decide

/-- Families A to E: Annn, Bnnn, Cxnn, Dxyn, Ex9E, ExA1. -/
theorem test_decode_famABCDE : decodeWord .refuse 0b1010000001010000#16 = .instr (.ldI 0x050#12) ∧
    decodeWord .refuse 0b1011001100000000#16 = .instr (.jpV0 0x300#12) ∧
    decodeWord .refuse 0b1100001100001111#16 = .instr (.rnd 3 0x0F#8) ∧
    decodeWord .refuse 0b1101000100100101#16 = .instr (.drw 1 2 5#4) ∧
    decodeWord .refuse 0b1110010110011110#16 = .instr (.skp 5) ∧
    decodeWord .refuse 0b1110010110100001#16 = .instr (.sknp 5) := by decide

/-- Family F: Fx07, Fx0A, Fx15, Fx18, Fx1E, Fx29, Fx33, Fx55, Fx65. -/
theorem test_decode_famF : decodeWord .refuse 0b1111001100000111#16 = .instr (.ldVxDt 3) ∧
    decodeWord .refuse 0b1111001100001010#16 = .instr (.ldVxK 3) ∧
    decodeWord .refuse 0b1111000100010101#16 = .instr (.ldDtVx 1) ∧
    decodeWord .refuse 0b1111001000011000#16 = .instr (.ldStVx 2) ∧
    decodeWord .refuse 0b1111001000011110#16 = .instr (.addI 2) ∧
    decodeWord .refuse 0b1111010000101001#16 = .instr (.ldF 4) ∧
    decodeWord .refuse 0b1111000000110011#16 = .instr (.ldB 0) ∧
    decodeWord .refuse 0b1111001001010101#16 = .instr (.storeRegs 2) ∧
    decodeWord .refuse 0b1111001001100101#16 = .instr (.loadRegs 2) := by decide

/-- R76, T5, T6, T7: unrecognised words, and family-0 words at the edge of the AMB0 band. -/
theorem test_decode_unrecognised : decodeWord .refuse 0x8128#16 = .unrecognised ∧
    decodeWord .refuse 0x812F#16 = .unrecognised ∧ decodeWord .refuse 0xE1FF#16 = .unrecognised ∧
    decodeWord .refuse 0xF1FF#16 = .unrecognised ∧ decodeWord .refuse 0x00FF#16 = .instr (.sys 0x0FF#12) ∧
    decodeWord .refuse 0x0000#16 = .instr (.sys 0x000#12) := by decide

/-- R75: the three bands under the three readings. -/
theorem test_decode_ambiguous : decodeWord .refuse 0x01E0#16 = .ambiguous .amb0 ∧
    decodeWord .table 0x01E0#16 = .unrecognised ∧ decodeWord .prose 0x0FEE#16 = .instr .ret ∧
    decodeWord .refuse 0x5121#16 = .ambiguous .amb5 ∧ decodeWord .prose 0x5121#16 = .instr (.seReg 1 2) ∧
    decodeWord .refuse 0x912F#16 = .ambiguous .amb9 ∧ decodeWord .table 0x912F#16 = .unrecognised := by decide

/-- The table's numbering: the word itself, its upper bits dropped; and no instruction where there is none. -/
theorem test_decodeTableWord : decodeTableWord 16 0xD125 = some (.drw 1 2 5#4) ∧
    decodeTableWord 16 0x8128 = none ∧ decodeTableWord 16 0x5121 = none := by decide

/-- The worked words of R103, R122, R127, R162 and R145, encoded, with the high byte first (R54). -/
theorem test_encode : encode (.jp 0x20C#12) = 0x120C#16 ∧ encode (.addImm 1 0xFF#8) = 0x71FF#16 ∧
    encode (.addReg 1 2) = 0x8124#16 ∧ encode (.drw 0 0 5#4) = 0xD005#16 ∧ encode (.loadRegs 2) = 0xF265#16 ∧
    encodeBytes (.shl 1 0) = [0x81#8, 0x0E#8] := by decide

/-! ### The cycle -/

/-- T1: the last fetch that succeeds. -/
theorem test_fetch_last : obs (fun t => (t.getV 0, t.pc)) (runWord .refuse 0x6042#16 { State.reset with pc := 0x0FFE#16 }) =
    some (0x42#8, 0x1000#16) := by decide

/-- T2: a fetch at 0xFFF. -/
theorem test_fetch_fault : obs (fun t => (t.status, t.pc, t.opc))
    (runInstruction .refuse { State.reset with pc := 0x0FFF#16 }) =
    some (.faulted .memoryOutOfRange 0x0FFF#16 none, 0x0FFF#16, 0x0000#16) := by decide

/-- T16: the latch. -/
theorem test_latch : obs (fun t => (t.opc, t.pc)) (runWord .refuse 0x1234#16 State.reset) =
    some (0x1234#16, 0x0234#16) := by decide

/-- T8: a refused word. -/
theorem test_refused : obs (fun t => (t.status, t.pc)) (runWord .refuse 0x5121#16 State.reset) =
    some (.refused .ambiguousEncoding 0x0200#16 0x5121#16, 0x0202#16) := by decide

/-- T10, T14: the same words under the other readings. -/
theorem test_other_readings : pcAfter (runWord .prose 0x5121#16 State.reset) = some 0x0204#16 ∧
    pcAfter (runWord .table 0x912F#16 (v12 0x01#8 0x00#8)) = some 0x0202#16 := by decide

/-- T13: `0FEE` as RET under the prose reading, with no frame held. -/
theorem test_prose_ret : obs (fun t => t.status) (runWord .prose 0x0FEE#16 State.reset) =
    some (.faulted .stackUnderflow 0x0200#16 (some 0x0FEE#16)) := by decide

/-- T6: an unrecognised word leaves all but PC and OPC. -/
theorem test_unrecognised : runWord .refuse 0x8128#16 State.reset =
    .next { State.reset.placeWord 0x8128#16 with opc := 0x8128#16, pc := 0x0202#16 } := rfl

/-- A step from reset with a word placed runs it (R90): 6A5C. -/
theorem test_step_runs_placed_word : obs (fun t => (t.getV 10, t.pc, t.now)) (step (State.reset.withFetchWord 16 0x6A5C)) =
    some (0x5C#8, 0x0202#16, 1) := by decide

/-- T15: a step request to a halted core changes nothing, and a step of it only passes the boundary. -/
theorem test_halted_step (s : State) (h : s.status = .faulted .stackUnderflow 0x0200#16 (some 0x00EE#16)) :
    stepRequest .refuse s = .next s ∧ step s = .next s.boundary := by
  have hb : s.boundary.status = .faulted .stackUnderflow 0x0200#16 (some 0x00EE#16) := h
  constructor
  · unfold stepRequest; rw [h]
  · unfold step stepWith stepRequest; rw [hb]

/-- R177: a tick reaches the timers of a halted core; DT = 2 with the tick due, ST = 2 with it one boundary away. -/
theorem test_halted_tick : obs (fun t => (t.dt, t.st, t.pc, t.status))
    (step { State.reset with
      status := .faulted .stackUnderflow 0x0200#16 (some 0x00EE#16), pc := 0x0202#16, dt := 2, st := 2, stGap := 1 }) =
    some (0x01#8, 0x02#8, 0x0202#16, .faulted .stackUnderflow 0x0200#16 (some 0x00EE#16)) := by decide

/-! ### Control flow -/

/-- T20. -/
theorem test_ret : obs (fun t => (t.sp, t.pc, t.stack[0]))
    (runWord .refuse 0x00EE#16 { State.reset with sp := 1, stack := State.reset.stack.set 0 0x0206#16 }) =
    some (0, 0x0206#16, 0x0206#16) := by decide

/-- T21. -/
theorem test_ret_underflow : obs (fun t => (t.status, t.sp, t.pc)) (runWord .refuse 0x00EE#16 State.reset) =
    some (.faulted .stackUnderflow 0x0200#16 (some 0x00EE#16), 0, 0x0202#16) := by decide

/-- T22, T23. -/
theorem test_jp : pcAfter (runWord .refuse 0x1ABC#16 State.reset) = some 0x0ABC#16 ∧
    pcAfter (runWord .refuse 0x1201#16 State.reset) = some 0x0201#16 := by decide

/-- T25, T26. -/
theorem test_call : obs (fun t => (t.sp, t.stack[0], t.pc)) (runWord .refuse 0x2300#16 State.reset) =
      some (1, 0x0202#16, 0x0300#16) ∧
    obs (fun t => (t.sp, t.stack[15], t.pc)) (runWord .refuse 0x2300#16 { State.reset with sp := 15 }) =
      some (16, 0x0202#16, 0x0300#16) := by decide

/-- T27. -/
theorem test_call_overflow : obs (fun t => (t.status, t.sp, t.stack))
    (runWord .refuse 0x2300#16 { State.reset with sp := 16 }) =
    some (.faulted .stackOverflow 0x0200#16 (some 0x2300#16), 16, State.reset.stack) := by decide

/-- T28, T29. -/
theorem test_seImm : pcAfter (runWord .refuse 0x3342#16 (v34 0x42#8 0#8)) = some 0x0204#16 ∧
    pcAfter (runWord .refuse 0x3342#16 (v34 0x41#8 0#8)) = some 0x0202#16 := by decide

/-- T31, T32. -/
theorem test_sneImm : pcAfter (runWord .refuse 0x4342#16 (v34 0x41#8 0#8)) = some 0x0204#16 ∧
    pcAfter (runWord .refuse 0x4342#16 (v34 0x42#8 0#8)) = some 0x0202#16 := by decide

/-- T33, T34, T35. -/
theorem test_seReg : pcAfter (runWord .refuse 0x5340#16 (v34 0x10#8 0x10#8)) = some 0x0204#16 ∧
    pcAfter (runWord .refuse 0x5340#16 (v34 0x10#8 0x11#8)) = some 0x0202#16 ∧
    pcAfter (runWord .refuse 0x5330#16 (v34 0x10#8 0x11#8)) = some 0x0204#16 := by decide

/-- T36, T37. -/
theorem test_sneReg : pcAfter (runWord .refuse 0x9340#16 (v34 0x10#8 0x11#8)) = some 0x0204#16 ∧
    pcAfter (runWord .refuse 0x9330#16 (v34 0x10#8 0x11#8)) = some 0x0202#16 := by decide

/-- T39, T40. -/
theorem test_jpV0 : pcAfter (runWord .refuse 0xB0FF#16 (State.reset.setV 0 0xFF#8)) = some 0x01FE#16 ∧
    pcAfter (runWord .refuse 0xBFFF#16 (State.reset.setV 0 0xFF#8)) = some 0x10FE#16 := by decide

/-- T4: `SYS` leaves all but PC and OPC. -/
theorem test_sys : runWord .refuse 0x0123#16 State.reset =
    .next { State.reset.placeWord 0x0123#16 with opc := 0x0123#16, pc := 0x0202#16 } := rfl

/-! ### Register and ALU operations -/

/-- T51. -/
theorem test_ldImm : obs (fun t => t.getV 15) (runWord .refuse 0x6F07#16 State.reset) = some 0x07#8 := by decide

/-- T52, T53. -/
theorem test_addImm : v1AndFlag (runWord .refuse 0x71FF#16 (v12 0x05#8 0#8)) = some (0x04#8, 0x00#8) ∧
    v1AndFlag (runWord .refuse 0x7101#16 (v12 0xFF#8 0#8)) = some (0x00#8, 0x00#8) := by decide

/-- T55. -/
theorem test_ldReg : v1AndFlag (runWord .refuse 0x8120#16 (v12 0#8 0x33#8)) = some (0x33#8, 0x00#8) := by decide

/-- T56. -/
theorem test_orReg : v1AndFlag (runWord .refuse 0x8121#16 ((v12 0x0F#8 0xF0#8).setV 15 0x05#8)) =
    some (0xFF#8, 0x05#8) := by decide

/-- T57. -/
theorem test_andReg : v1AndFlag (runWord .refuse 0x8122#16 (v12 0x3C#8 0x0F#8)) = some (0x0C#8, 0x00#8) := by decide

/-- T58, T59. -/
theorem test_xorReg : v1AndFlag (runWord .refuse 0x8123#16 (v12 0xFF#8 0x0F#8)) = some (0xF0#8, 0x00#8) ∧
    v1AndFlag (runWord .refuse 0x8113#16 (v12 0x5A#8 0#8)) = some (0x00#8, 0x00#8) := by decide

/-- T60, T61. -/
theorem test_addReg : v1AndFlag (runWord .refuse 0x8124#16 (v12 0xFF#8 0x01#8)) = some (0x00#8, 0x01#8) ∧
    v1AndFlag (runWord .refuse 0x8114#16 (v12 0x80#8 0#8)) = some (0x00#8, 0x01#8) := by decide

/-- T62, T63, T64: an operand that is VF. -/
theorem test_addReg_vf : v1AndFlag (runWord .refuse 0x8F14#16 (v1f 0x01#8 0xFF#8)) = some (0x01#8, 0x00#8) ∧
    v1AndFlag (runWord .refuse 0x81F4#16 (v1f 0x10#8 0x20#8)) = some (0x30#8, 0x00#8) ∧
    v1AndFlag (runWord .refuse 0x8FF4#16 (v1f 0#8 0x81#8)) = some (0#8, 0x02#8) := by decide

/-- T65, T66, T67. -/
theorem test_subReg : v1AndFlag (runWord .refuse 0x8125#16 (v12 0x05#8 0x07#8)) = some (0xFE#8, 0x00#8) ∧
    v1AndFlag (runWord .refuse 0x8125#16 (v12 0x07#8 0x05#8)) = some (0x02#8, 0x01#8) ∧
    v1AndFlag (runWord .refuse 0x8125#16 (v12 0x07#8 0x07#8)) = some (0x00#8, 0x00#8) := by decide

/-- T70, T71, T72, T73: an operand that is VF. -/
theorem test_subReg_vf : v1AndFlag (runWord .refuse 0x8F15#16 (v1f 0x03#8 0x05#8)) = some (0x03#8, 0xFE#8) ∧
    v1AndFlag (runWord .refuse 0x8F15#16 (v1f 0x05#8 0x03#8)) = some (0x05#8, 0xFB#8) ∧
    v1AndFlag (runWord .refuse 0x81F5#16 (v1f 0x05#8 0x03#8)) = some (0x04#8, 0x01#8) ∧
    v1AndFlag (runWord .refuse 0x8FF5#16 (v1f 0#8 0x42#8)) = some (0#8, 0x00#8) := by decide

/-- T74, T75. -/
theorem test_shr : v1AndFlag (runWord .refuse 0x8106#16 (v12 0x05#8 0#8)) = some (0x02#8, 0x01#8) ∧
    obs (fun t => t.getV 2) (runWord .refuse 0x8126#16 (v12 0x01#8 0xAA#8)) = some 0xAA#8 := by decide

/-- T76. -/
theorem test_shr_vf : v1AndFlag (runWord .refuse 0x8F16#16 (v1f 0#8 0xFF#8)) = some (0#8, 0x00#8) := by decide

/-- T77, T78, T79. -/
theorem test_subnReg : v1AndFlag (runWord .refuse 0x8127#16 (v12 0x05#8 0x07#8)) = some (0x02#8, 0x01#8) ∧
    v1AndFlag (runWord .refuse 0x8127#16 (v12 0x07#8 0x07#8)) = some (0x00#8, 0x00#8) ∧
    v1AndFlag (runWord .refuse 0x8127#16 (v12 0x01#8 0x00#8)) = some (0xFF#8, 0x00#8) := by decide

/-- T80, T81, T82: an operand that is VF. -/
theorem test_subnReg_vf : v1AndFlag (runWord .refuse 0x8F17#16 (v1f 0x05#8 0x03#8)) = some (0x05#8, 0x04#8) ∧
    v1AndFlag (runWord .refuse 0x81F7#16 (v1f 0x05#8 0x03#8)) = some (0xFB#8, 0x00#8) ∧
    v1AndFlag (runWord .refuse 0x8FF7#16 (v1f 0#8 0x09#8)) = some (0#8, 0x00#8) := by decide

/-- T83, T84, T85. -/
theorem test_shl : v1AndFlag (runWord .refuse 0x810E#16 (v12 0x81#8 0#8)) = some (0x02#8, 0x01#8) ∧
    v1AndFlag (runWord .refuse 0x810E#16 (v12 0x80#8 0#8)) = some (0x00#8, 0x01#8) ∧
    v1AndFlag (runWord .refuse 0x810E#16 (v12 0x7F#8 0#8)) = some (0xFE#8, 0x00#8) := by decide

/-- T86, T87, T88. -/
theorem test_shl_vf : v1AndFlag (runWord .refuse 0x8F1E#16 (v1f 0#8 0x80#8)) = some (0#8, 0x02#8) ∧
    v1AndFlag (runWord .refuse 0x8F1E#16 (v1f 0#8 0x7F#8)) = some (0#8, 0x00#8) ∧
    v1AndFlag (runWord .refuse 0x8FFE#16 (v1f 0#8 0xC0#8)) = some (0#8, 0x02#8) := by decide

/-- T89, T90. -/
theorem test_rnd : obs (fun t => t.getV 3) (runWord .refuse 0xC30F#16 { State.reset with rnd := 0xA7#8 }) = some 0x07#8 ∧
    obs (fun t => t.getV 3) (runWord .refuse 0xC3F0#16 { State.reset with rnd := 0xA7#8 }) = some 0xA0#8 := by decide

/-! ### Index register and memory transfers -/

/-- T100. -/
theorem test_ldI : obs (fun t => t.i) (runWord .refuse 0xAFFF#16 State.reset) = some 0x0FFF#16 := by decide

/-- T101, T102. -/
theorem test_addI : obs (fun t => (t.i, t.getV 15)) (runWord .refuse 0xF21E#16 ((v12 0#8 0x01#8).setI 0x0FFF#16)) =
      some (0x1000#16, 0x00#8) ∧
    obs (fun t => (t.i, t.getV 15)) (runWord .refuse 0xF11E#16 ((v12 0x01#8 0#8).setI 0xFFFF#16)) =
      some (0x0000#16, 0x00#8) := by decide

/-- T104, T107. -/
theorem test_ldF : obs (fun t => t.i) (runWord .refuse 0xF429#16 (v34 0#8 0x0A#8)) = some 0x0082#16 ∧
    obs (fun t => t.i) (runWord .refuse 0xF129#16 (v12 0xFF#8 0#8)) = some 0x054B#16 := by decide

/-- T110. -/
theorem test_ldB : obs (fun t => (t.peek 0xFFD, t.peek 0xFFE, t.peek 0xFFF, t.i))
    (runWord .refuse 0xF133#16 ((v12 0xFF#8 0#8).setI 0x0FFD#16)) =
    some (0x02#8, 0x05#8, 0x05#8, 0x0FFD#16) := by decide

/-- T111. -/
theorem test_ldB_fault : obs (fun t => (t.status, t.peek 0xFFE))
    (runWord .refuse 0xF133#16 ((v12 0x01#8 0#8).setI 0x0FFE#16)) =
    some (.faulted .memoryOutOfRange 0x0200#16 (some 0xF133#16), 0x00#8) := by decide

/-- T112. -/
theorem test_storeRegs : obs (fun t => (t.peek 0x300, t.peek 0x301, t.peek 0x302, t.peek 0x303, t.i))
    (runWord .refuse 0xF255#16 (((v12 0x02#8 0x03#8).setV 0 0x01#8).setI 0x0300#16)) =
    some (0x01#8, 0x02#8, 0x03#8, 0x00#8, 0x0300#16) := by decide

/-- T115 and T119: the fault; a store over the program at PC. -/
theorem test_storeRegs_edge : obs (fun t => t.status) (runWord .refuse 0xFF55#16 (State.reset.setI 0x0FF1#16)) =
      some (.faulted .memoryOutOfRange 0x0200#16 (some 0xFF55#16)) ∧
    obs (fun t => (t.peek 0x200, t.peek 0x201))
      (runWord .refuse 0xF155#16 (((v12 0x56#8 0#8).setV 0 0x34#8).setI 0x0200#16)) =
      some (0x34#8, 0x56#8) := by decide

/-- T116. -/
theorem test_loadRegs : obs (fun t => (t.getV 0, t.getV 1, t.getV 2, t.getV 3, t.i))
    (runWord .refuse 0xF265#16 ((((((v34 0x99#8 0#8).setI 0x0300#16).poke 0x300 0x02#8).poke 0x301 0x05#8).poke 0x302 0x04#8))) =
    some (0x02#8, 0x05#8, 0x04#8, 0x99#8, 0x0300#16) := by decide

/-- T117 and T118: VF as data; the fault. -/
theorem test_loadRegs_edge : obs (fun t => t.getV 15)
      (runWord .refuse 0xFF65#16 ((State.reset.setI 0x0300#16).poke 0x30F 0x9C#8)) = some 0x9C#8 ∧
    obs (fun t => t.status) (runWord .refuse 0xFF65#16 (State.reset.setI 0x0FF1#16)) =
      some (.faulted .memoryOutOfRange 0x0200#16 (some 0xFF65#16)) := by decide

/-! ### Display -/

/-- T130: one pixel on, VF = 07. -/
theorem test_cls : obs (fun t => (t.pixel 5 3, t.getV 15))
    (runWord .refuse 0x00E0#16 ((State.reset.setPixel 5 3 true).setV 15 0x07#8)) = some (false, 0x07#8) := by decide

/-- T132: the horizontal wrap. -/
theorem test_drw_wrap : obs (fun t => ((List.finRange 64).filter (fun c => t.pixel c 0), t.getV 15))
    (runWord .refuse 0xD011#16 (((State.reset.setV 0 0x3C#8).setI 0x0300#16).poke 0x300 0xFF#8)) =
    some ([0, 1, 2, 3, 60, 61, 62, 63], 0x00#8) := by decide

/-- T138, T139: the fault before VF; the collision. -/
theorem test_drw_edge : obs (fun t => (t.status, t.getV 15)) (runWord .refuse 0xD002#16 ((v1f 0#8 0x07#8).setI 0x0FFF#16)) =
      some (.faulted .memoryOutOfRange 0x0200#16 (some 0xD002#16), 0x07#8) ∧
    obs (fun t => (t.pixel 5 3, t.pixel 6 3, t.getV 15)) (runWord .refuse 0xD011#16
      (((((v12 0x03#8 0#8).setV 0 0x05#8).setI 0x0300#16).poke 0x300 0xC0#8).setPixel 5 3 true)) =
      some (false, true, 0x01#8) := by decide

/-! ### Keypad and timers -/

/-- T150, T151. -/
theorem test_skp : pcAfter (runWord .refuse 0xE59E#16 ((withKeys [7]).setV 5 0x07#8)) = some 0x0204#16 ∧
    pcAfter (runWord .refuse 0xE59E#16 ((withKeys []).setV 5 0x07#8)) = some 0x0202#16 := by decide

/-- T152. -/
theorem test_skp_fault : obs (fun t => t.status) (runWord .refuse 0xE19E#16 (v12 0x10#8 0#8)) =
    some (.faulted .keyIndexOutOfRange 0x0200#16 (some 0xE19E#16)) := by decide

/-- T153, T154. -/
theorem test_sknp : pcAfter (runWord .refuse 0xE5A1#16 ((withKeys []).setV 5 0x07#8)) = some 0x0204#16 ∧
    pcAfter (runWord .refuse 0xE5A1#16 ((withKeys [7]).setV 5 0x07#8)) = some 0x0202#16 := by decide

/-- T155. -/
theorem test_sknp_fault : obs (fun t => t.status) (runWord .refuse 0xE1A1#16 (v12 0xFF#8 0#8)) =
    some (.faulted .keyIndexOutOfRange 0x0200#16 (some 0xE1A1#16)) := by decide

/-- T156. -/
theorem test_ldVxDt : obs (fun t => t.getV 3) (runWord .refuse 0xF307#16 (State.reset.setDt 0x3C#8)) = some 0x3C#8 := by
  decide

/-- T157, T158. -/
theorem test_ldVxK : obs (fun t => (t.getV 3, t.pc)) (runWord .refuse 0xF30A#16 (withKeys [])) =
      some (0x00#8, 0x0200#16) ∧
    obs (fun t => (t.getV 3, t.pc)) (runWord .refuse 0xF30A#16 (withKeys [10, 7])) =
      some (0x07#8, 0x0202#16) := by decide

/-- T160, T161. -/
theorem test_ldDtVx : obs (fun t => t.dt) (runWord .refuse 0xF115#16 (v12 0x05#8 0#8)) = some 0x05#8 ∧
    obs (fun t => t.dt) (runWord .refuse 0xF115#16 (State.reset.setDt 0x09#8)) = some 0x00#8 := by decide

/-- T162. -/
theorem test_ldStVx : obs (fun t => (t.st, t.soundOn)) (runWord .refuse 0xF218#16 (v12 0#8 0x02#8)) =
    some (0x02#8, true) := by decide

/-- T163 to T166. -/
theorem test_tick : (State.reset.setDt 0x01#8).tick true true = State.reset ∧
    (((State.reset.setDt 0x02#8).setSt 0x02#8).tick false true).st = 0x01#8 ∧
    (((State.reset.setDt 0x02#8).setSt 0x02#8).tick false true).dt = 0x02#8 ∧
    (State.reset.tick true false).dt = 0x00#8 ∧ ((State.reset.setSt 0x01#8).tick false true).soundOn = false := by
  decide

/-! ### Initialisation and memory -/

/-- R38: memory after reset is canonical, and holds glyph 0 of the font at 0x050 (R60). -/
theorem test_reset_memory : Memory.wf State.reset.mem = true ∧ State.reset.peek 0x050 = 0xF0#8 ∧
    State.reset.peek 0x09F = 0x80#8 ∧ State.reset.peek 0x04F = 0x00#8 ∧ State.reset.peek 0x0A0 = 0x00#8 := by decide

/-- Writing what an unlisted address reads as removes the entry. -/
theorem test_memory_canonical : ((State.reset.poke 0x300 0x12#8).poke 0x300 0x00#8).mem = [] ∧
    ((State.reset.poke 0x302 0x12#8).poke 0x300 0x34#8).mem = [(0x300, 0x34#8), (0x302, 0x12#8)] := by decide

/-- T171: a load after a fault, of the two bytes 60 0A. -/
theorem test_load_after_fault : (match State.load [0x60#8, 0x0A#8]
      { State.reset with status := .faulted .stackUnderflow 0x0200#16 none } with
    | .ok t => some (t.status, t.peek 0x200, t.peek 0x201, t.pc)
    | .error _ => none) = some (.running, 0x60#8, 0x0A#8, 0x0200#16) := by decide

/-- R190: the codes of a status. -/
theorem test_status_codes : Status.code .running = none ∧
    Status.code (.faulted .keyIndexOutOfRange 0#16 none) = some 4 ∧
    Status.code (.refused .ambiguousEncoding 0#16 0#16) = some 5 := by decide

/-! ### Witnesses: for each obligation with hypotheses, data that meet them together -/

/-- A state that was loaded, with a word placed at 0x200. -/
def placed (w : Word) : State := State.reset.placeWord w

/-- A halted state. -/
def haltedState : State := { State.reset with status := .faulted .stackUnderflow 0x0200#16 (some 0x00EE#16) }

/-- A state whose first 16 bytes from 0xFF0 hold the registers' future values, and I there. -/
def topOfMemory : State := (State.reset.setI 0x0FF0#16).poke 0xFFF 0x9C#8

/-- Well-formed instructions of both kinds of arm, at the ends of their fields. -/
theorem witness_DecodeOfEncodeGivesTheInstruction : Instr.wf (.sys 0xFFF#12) = true ∧ Instr.wf (.drw 15 0 15#4) = true := by
  decide

theorem witness_EncodeOfDecodedWordGivesTheWord : AmbiguousDecode.refuse ≠ .prose ∧
    decodeWord .refuse 0x8FFE#16 = .instr (.shl 15 15) ∧ AmbiguousDecode.table ≠ .prose ∧
    decodeWord .table 0x0FFF#16 = .instr (.sys 0xFFF#12) := by decide

theorem witness_WordsDecodeToTheirRowOfTheOpcodeMap : (∀ nnn, Instr.addReg 0 0 ≠ .sys nnn) ∧
    0x8FF4#16 &&& rowMask (.addReg 0 0) = rowMatch (.addReg 0 0) := ⟨nofun, by decide⟩

/-- Each band at an end of its range. -/
theorem witness_AmbiguousBandsReadAsTheParameterSays :
    (digit 0x01E0#16 3 = 0 ∧ digit 0x01E0#16 2 ≠ 0 ∧ lowByte 0x01E0#16 = 0xE0) ∧
    (digit 0x0FEE#16 3 = 0 ∧ digit 0x0FEE#16 2 ≠ 0 ∧ lowByte 0x0FEE#16 = 0xEE) ∧
    (digit 0x50F1#16 3 = 5 ∧ digit 0x50F1#16 2 = (0 : Reg).val ∧ digit 0x50F1#16 1 = (15 : Reg).val ∧
      digit 0x50F1#16 0 ≠ 0) ∧
    (digit 0x9F0F#16 3 = 9 ∧ digit 0x9F0F#16 2 = (15 : Reg).val ∧ digit 0x9F0F#16 1 = (0 : Reg).val ∧
      digit 0x9F0F#16 0 ≠ 0) ∧
    decodeWord .refuse 0x5FFF#16 = .ambiguous .amb5 := by decide

theorem witness_UnrecognisedWordsAreExactlyTheseAndDoNothing : AmbiguousDecode.refuse ≠ .table ∧
    (digit 0x01E1#16 3 = 0 ∧ lowByte 0x01E1#16 ∉ [0xE0, 0xEE]) ∧
    (digit 0x800F#16 3 = 8 ∧ digit 0x800F#16 0 ∈ [0x8, 0x9, 0xA, 0xB, 0xC, 0xD, 0xF]) ∧
    (digit 0xE0A0#16 3 = 0xE ∧ lowByte 0xE0A0#16 ∉ [0x9E, 0xA1]) ∧
    (digit 0xFF64#16 3 = 0xF ∧
      lowByte 0xFF64#16 ∉ [0x07, 0x0A, 0x15, 0x18, 0x1E, 0x29, 0x33, 0x55, 0x65]) := by decide

theorem witness_InstructionsAreTwoBytesBigEndian : Instr.wf (.ldI 0x050#12) = true := by decide

/-- At the entry point, and at 0xFFE, the last address that can be fetched. -/
theorem witness_StepRunsTheDecodedInstruction :
    ((placed 0x8124#16).status = .running ∧ (placed 0x8124#16).pc.toNat + 1 < 4096 ∧
      decodeWord .refuse (wordAtPc (placed 0x8124#16)) = .instr (.addReg 1 2)) ∧
    (let s := { State.reset with pc := 0x0FFE#16 }
     s.status = .running ∧ s.pc.toNat + 1 < 4096 ∧ decodeWord .refuse (wordAtPc s) = .instr (.sys 0#12)) := by decide

theorem witness_UnrecognisedWordStepOnlyAdvances : (placed 0x8128#16).status = .running ∧
    (placed 0x8128#16).pc.toNat + 1 < 4096 ∧ decodeWord .refuse (wordAtPc (placed 0x8128#16)) = .unrecognised := by decide

/-- At 0xFFF and at the highest PC of R26; and at 0xFFE. -/
theorem witness_FetchFaultsFrom0xFFF :
    ((State.reset.setPc 0x0FFF#16).status = .running ∧ 0xFFF ≤ (State.reset.setPc 0x0FFF#16).pc.toNat) ∧
    ((State.reset.setPc 0x10FE#16).status = .running ∧ 0xFFF ≤ (State.reset.setPc 0x10FE#16).pc.toNat) ∧
    (State.reset.setPc 0x0FFE#16).pc.toNat = 0xFFE := by decide

theorem witness_AmbiguousWordHaltsRefused : (placed 0x9AB1#16).status = .running ∧
    (placed 0x9AB1#16).pc.toNat + 1 < 4096 ∧ isAmbiguousWord (wordAtPc (placed 0x9AB1#16)) = true := by decide

theorem witness_HaltedCoreIgnoresEveryStep : haltedState.status ≠ .running := by decide

/-- The invariant at the last address that can be fetched, and a step from there; and at a halted state. -/
theorem witness_EveryStepKeepsTheInvariant :
    ((State.reset.setPc 0x0FFE#16).Inv ∧ ∃ t, stepWith .refuse (State.reset.setPc 0x0FFE#16) = .next t) ∧
    (haltedState.Inv ∧ ∃ t, stepWith .refuse haltedState = .next t) :=
  ⟨⟨⟨rfl, by decide, by decide, trivial⟩, _, rfl⟩, ⟨⟨rfl, by decide, by decide, show (0x0200#16).toNat ≤ 0xFFE by decide⟩, _, rfl⟩⟩

/-- Each kind of fault, raised at the edge of its condition. -/
theorem witness_FaultsArePreciseAndRaisedByTheirInstructions : State.reset.status = .running ∧
    obs (fun t => t.status) (exec .ret State.reset) = some (.faulted .stackUnderflow 0x01FE#16 (some 0#16)) ∧
    obs (fun t => t.status) (exec (.call 0#12) { State.reset with sp := 16 }) =
      some (.faulted .stackOverflow 0x01FE#16 (some 0#16)) ∧
    obs (fun t => t.status) (exec (.skp 0) (State.reset.setV 0 0x10#8)) =
      some (.faulted .keyIndexOutOfRange 0x01FE#16 (some 0#16)) ∧
    obs (fun t => t.status) (exec (.drw 0 0 1#4) (State.reset.setI 0x1000#16)) =
      some (.faulted .memoryOutOfRange 0x01FE#16 (some 0#16)) ∧
    obs (fun t => t.status) (exec (.ldB 0) (State.reset.setI 0x0FFE#16)) =
      some (.faulted .memoryOutOfRange 0x01FE#16 (some 0#16)) := by decide

/-- No frame, one frame, sixteen frames. -/
theorem witness_ReturnPopsPcOrUnderflows : State.reset.sp.val = 0 ∧
    ({ State.reset with sp := 1 } : State).sp.val = (0 : Fin 16).val + 1 ∧
    ({ State.reset with sp := 16 } : State).sp.val = (15 : Fin 16).val + 1 := by decide

/-- Sixteen frames, none, fifteen. -/
theorem witness_CallPushesPcOrOverflows : ({ State.reset with sp := 16 } : State).sp.val = 16 ∧
    State.reset.sp.val = (0 : Fin 16).val ∧ ({ State.reset with sp := 15 } : State).sp.val = (15 : Fin 16).val := by decide

theorem witness_ReturnAfterCallResumesAfterTheCall :
    ({ State.reset with sp := 15 } : State).sp.val < 16 ∧
    ∃ t u : State, exec (.call 0x210#12) { State.reset with sp := 15 } = .next t ∧ u.sp = t.sp ∧ u.stack = t.stack :=
  ⟨by decide, _, _, rfl, rfl, rfl⟩

theorem witness_BcdStoresThreeDigitsAtI : Memory.wf topOfMemory.mem = true ∧
    4096 ≤ (topOfMemory.setI 0x0FFE#16).i.toNat + 2 ∧ (topOfMemory.setI 0x0FFD#16).i.toNat + 2 < 4096 := by decide

theorem witness_StoreRegistersWritesV0ThroughVxAtI : Memory.wf topOfMemory.mem = true ∧
    topOfMemory.i.toNat + (15 : Reg).val < 4096 ∧ 4096 ≤ (topOfMemory.setI 0x0FF1#16).i.toNat + (15 : Reg).val := by decide

theorem witness_LoadRegistersReadsV0ThroughVxFromI :
    topOfMemory.i.toNat + (15 : Reg).val < 4096 ∧ 4096 ≤ (topOfMemory.setI 0x0FF1#16).i.toNat + (15 : Reg).val ∧
    (3 : Reg).val < (4 : Reg).val := by decide

theorem witness_BlockLoadAfterBlockStoreRestoresRegisters : Memory.wf topOfMemory.mem = true ∧
    topOfMemory.i.toNat + (15 : Reg).val < 4096 ∧ ∃ t, exec (.storeRegs 15) topOfMemory = .next t :=
  ⟨by decide, by decide, _, rfl⟩

/-- A store over both bytes at PC from below it, over the first, over the second, and over neither; the last PC that can be
fetched with a block that ends at 0xFFF; digits that end at PC. -/
theorem witness_NextFetchSeesTheStore :
    (Memory.wf topOfMemory.mem = true ∧ topOfMemory.pc.toNat + 1 < 4096) ∧
    ((topOfMemory.setI 0x01FF#16).i.toNat + (2 : Reg).val < 4096 ∧
      byteAfterStore 2 ((v12 0x12#8 0x34#8).setI 0x01FF#16) 0x200 = 0x12#8 ∧
      byteAfterStore 2 ((v12 0x12#8 0x34#8).setI 0x01FF#16) 0x201 = 0x34#8) ∧
    (byteAfterStore 1 ((v12 0x12#8 0x34#8).setI 0x01FF#16) 0x200 = 0x12#8 ∧
      byteAfterStore 1 ((v12 0x12#8 0x34#8).setI 0x01FF#16) 0x201 = 0x00#8) ∧
    (byteAfterStore 0 (((v12 0x12#8 0x34#8).setV 0 0x56#8).setI 0x0201#16) 0x200 = 0x00#8 ∧
      byteAfterStore 0 (((v12 0x12#8 0x34#8).setV 0 0x56#8).setI 0x0201#16) 0x201 = 0x56#8) ∧
    ((topOfMemory.setPc 0x0FFE#16).pc.toNat + 1 < 4096 ∧ topOfMemory.i.toNat + (15 : Reg).val < 4096) ∧
    ((topOfMemory.setI 0x01FE#16).i.toNat + 2 < 4096 ∧
      byteAfterBcd 1 ((v12 0xFE#8 0#8).setI 0x01FE#16) 0x200 = 4 ∧
      byteAfterBcd 1 ((v12 0xFE#8 0#8).setI 0x01FE#16) 0x201 = 0 ∧
      byteAfterBcd 1 ((v12 0xFE#8 0#8).setI 0x0200#16) 0x200 = 2 ∧
      byteAfterBcd 1 ((v12 0xFE#8 0#8).setI 0x0200#16) 0x201 = 5) := by decide

/-- The word at PC after a store that starts one byte below PC: a step runs V1 V2 = 6A 5C (R66, R121). -/
theorem test_store_then_step : obs (fun t => t.fetch)
    (exec (.storeRegs 2) ((v12 0x6A#8 0x5C#8).setI 0x01FF#16)) = some (some 0x6A5C#16) := by decide

/-- A sprite that ends at 0xFFF and whose one row has its leftmost bit set; no rows, with I outside memory. -/
theorem witness_DrawInvertsExactlyTheSpritePixels :
    SpriteInside (topOfMemory.setI 0x0FFF#16) 1#4 ∧ SpriteInside (topOfMemory.setI 0xFFFF#16) 0#4 ∧
    Lands (topOfMemory.setI 0x0FFF#16) 0 0 1#4 0 0 ∧ ¬ Lands (topOfMemory.setI 0x0FFF#16) 0 0 1#4 1 0 :=
  ⟨.inr (by decide), .inl rfl, ⟨0, 0, by decide, by decide, by decide, by decide, by decide⟩, by
    rintro ⟨k, b, hk, hb, h, hc, -⟩
    have hk0 : k = 0 := by simpa using hk
    subst hk0
    have hb1 : b = 1 := by
      have : ((topOfMemory.setI 0x0FFF#16).getV 0).toNat = 0 := by decide
      rw [this] at hc
      simp at hc
      omega
    subst hb1
    exact absurd h (by decide)⟩

/-- A collision, and a draw on a clear screen. -/
theorem witness_DrawInvertsExactlyTheSpritePixels_flag :
    (SpriteInside ((topOfMemory.setI 0x0FFF#16).setPixel 0 0 true) 1#4 ∧
      ∃ c r, Lands ((topOfMemory.setI 0x0FFF#16).setPixel 0 0 true) 0 0 1#4 c r ∧
        ((topOfMemory.setI 0x0FFF#16).setPixel 0 0 true).pixel c r = true) ∧
    (SpriteInside State.reset 5#4 ∧ ∀ c r, Lands State.reset 0 0 5#4 c r → State.reset.pixel c r = false) :=
  ⟨⟨.inr (by decide), 0, 0, ⟨0, 0, by decide, by decide, by decide, by decide, by decide⟩, by decide⟩,
    .inr (by decide), fun c r _ => by
      have h : ∀ (c : Fin 64) (r : Fin 32), State.reset.pixel c r = false := by decide
      exact h c r⟩

/-- A sprite that runs one byte past 0xFFF. -/
theorem witness_DrawInvertsExactlyTheSpritePixels_fault : ¬ SpriteInside (State.reset.setI 0x0FFF#16) 2#4 := by
  unfold SpriteInside; decide

/-- A second draw of glyph 0 with another byte of memory written, and with the origin named by other values of V0 and V1:
64 and 32 more. -/
theorem witness_DrawingTwiceRestoresTheScreen : SpriteInside (State.reset.setI 0x0050#16) 5#4 ∧
    ∃ t, exec (.drw 0 1 5#4) (State.reset.setI 0x0050#16) = .next t ∧ ∃ u : State, u.fb = t.fb ∧
      u.i = (State.reset.setI 0x0050#16).i ∧ u.mem ≠ (State.reset.setI 0x0050#16).mem ∧
      (∀ k : Nat, k < (5#4).toNat → u.peek (0x50 + k) = (State.reset.setI 0x0050#16).peek (0x50 + k)) ∧
      (u.getV 0).toNat % 64 = ((State.reset.setI 0x0050#16).getV 0).toNat % 64 ∧
      (u.getV 1).toNat % 32 = ((State.reset.setI 0x0050#16).getV 1).toNat % 32 ∧
      u.getV 0 ≠ (State.reset.setI 0x0050#16).getV 0 :=
  ⟨.inr (by decide), _, rfl,
    { (((State.reset.setI 0x0050#16).poke 0x055 0xFF#8).setV 0 0x40#8).setV 1 0x20#8 with fb := _ },
    rfl, rfl, by decide, by decide, by decide, by decide, by decide⟩

/-- A value over 0x0F, and the keys 0 and 15. -/
theorem witness_KeySkipsFollowTheKeyLevel : 0x0F < ((State.reset.setV 5 0x10#8).getV 5).toNat ∧
    (State.reset.getV 5).toNat = (0 : Fin 16).val ∧ ((State.reset.setV 5 0x0F#8).getV 5).toNat = (15 : Fin 16).val := by
  decide

/-- Key 15 alone, keys 7 and A, and no key. -/
theorem witness_KeyWaitTakesTheLowestKeyOrRewinds :
    ((withKeys [15]).keys[(15 : Fin 16)] = true ∧ ∀ j : Fin 16, j < 15 → (withKeys [15]).keys[j] = false) ∧
    ((withKeys [10, 7]).keys[(7 : Fin 16)] = true ∧ ∀ j : Fin 16, j < 7 → (withKeys [10, 7]).keys[j] = false) ∧
    ∀ k : Fin 16, (withKeys []).keys[k] = false := by decide

/-- A ROM of exactly 3584 bytes. -/
theorem witness_LoadPlacesRomFontAndZeroes : (List.replicate 3584 0x12#8).length ≤ 3584 :=
  Nat.le_of_eq List.length_replicate

theorem witness_OversizedRomIsRefused : 3584 < (List.replicate 3585 0x12#8).length :=
  Nat.lt_of_lt_of_eq (by decide) List.length_replicate.symm

theorem witness_LoadLeavesALegalRunningState : ∃ t, State.loadWith defaultFont [0x60#8, 0x0A#8] haltedState = .ok t :=
  ⟨_, rfl⟩

theorem witness_OnlyClsAndDrwWriteTheScreen :
    ∃ t, exec .cls (State.reset.setPixel 0 0 true) = .next t ∧ t.fb ≠ (State.reset.setPixel 0 0 true).fb :=
  ⟨_, rfl, fun h => absurd (congrArg (fun f => f[0][0]) h) (by decide)⟩

theorem witness_OnlyBcdAndStoreWriteMemory : ∃ t, exec (.ldB 1) ((v12 0x01#8 0#8).setI 0x0300#16) = .next t ∧
    t.mem ≠ ((v12 0x01#8 0#8).setI 0x0300#16).mem := ⟨_, rfl, by decide⟩

theorem witness_GeneralRegistersAreWrittenAsTheTableLists :
    ∃ t, exec (.ldImm 15 0x07#8) State.reset = .next t ∧ t.getV 15 ≠ State.reset.getV 15 := ⟨_, rfl, by decide⟩

/-- One instruction that writes each register. -/
theorem witness_SpecialRegistersAreWrittenByTheirInstructions :
    (∃ t, exec (.ldI 0xFFF#12) State.reset = .next t ∧ t.i ≠ State.reset.i) ∧
    (∃ t, exec (.call 0x210#12) State.reset = .next t ∧ t.sp ≠ State.reset.sp ∧ t.stack ≠ State.reset.stack) ∧
    (∃ t, exec (.ldDtVx 1) (v12 0x05#8 0#8) = .next t ∧ t.dt ≠ (v12 0x05#8 0#8).dt) ∧
    (∃ t, exec (.ldStVx 1) (v12 0x05#8 0#8) = .next t ∧ t.st ≠ (v12 0x05#8 0#8).st) :=
  ⟨⟨_, rfl, by decide⟩, ⟨_, rfl, by decide, by decide⟩, ⟨_, rfl, by decide⟩, ⟨_, rfl, by decide⟩⟩

/-- A jump, a skip and the key wait. -/
theorem witness_PcMovesOnlyByJumpsSkipsAndTheKeyWait :
    (∃ t, exec (.jp 0xFFF#12) State.reset = .next t ∧ t.pc ≠ State.reset.pc) ∧
    (∃ t, exec (.seReg 0 0) State.reset = .next t ∧ t.pc ≠ State.reset.pc) ∧
    (∃ t, exec (.ldVxK 0) State.reset = .next t ∧ t.pc ≠ State.reset.pc) :=
  ⟨⟨_, rfl, by decide⟩, ⟨_, rfl, by decide⟩, ⟨_, rfl, by decide⟩⟩

theorem witness_NoInstructionReadsTheSoundTimer :
    ((∃ t, exec (.ldVxDt 0) State.reset = .next t) ∧ ∀ x, Instr.ldVxDt 0 ≠ .ldStVx x) ∧
    ((∃ t, exec (.ldStVx 0) State.reset = .next t) ∧ ∃ x, Instr.ldStVx 0 = .ldStVx x) :=
  ⟨⟨⟨_, rfl⟩, nofun⟩, ⟨_, rfl⟩, 0, rfl⟩

theorem witness_InputsAreReadOnlyByTheirInstructions :
    (∃ t, exec (.rnd 0 0xFF#8) State.reset = .next t) ∧
    (∀ x, Instr.rnd 0 0xFF#8 ≠ .skp x ∧ Instr.rnd 0 0xFF#8 ≠ .sknp x ∧ Instr.rnd 0 0xFF#8 ≠ .ldVxK x) ∧
    (∃ t, exec (.ldVxK 0) State.reset = .next t) ∧ (∀ x nn, Instr.ldVxK 0 ≠ .rnd x nn) :=
  ⟨⟨_, rfl⟩, fun _ => ⟨nofun, nofun, nofun⟩, ⟨_, rfl⟩, nofun⟩

end Sys2Proof.Tests
end

section
/-! The fields of an opcode as numbers: its hex digits and its remainders (spec R11). -/

namespace Sys2Proof.Proofs
open Sys2Proof.Claims

/-- The four bits from bit `4 * k` up are the hex digit `k`: a shift by `4 * k` divides by `16 ^ k`. -/
theorem toNat_extractLsb'_nibble (op : Word) (k : Nat) : (op.extractLsb' (4 * k) 4).toNat = digit op k := by
  rw [BitVec.extractLsb'_toNat, Nat.shiftRight_eq_div_pow, Nat.pow_mul]
  rfl

theorem toNat_famOf (op : Word) : (famOf op).toNat = digit op 3 := toNat_extractLsb'_nibble op 3

theorem val_xOf (op : Word) : (xOf op).val = digit op 2 := toNat_extractLsb'_nibble op 2

theorem val_yOf (op : Word) : (yOf op).val = digit op 1 := toNat_extractLsb'_nibble op 1

theorem toNat_nOf (op : Word) : (nOf op).toNat = digit op 0 := toNat_extractLsb'_nibble op 0

theorem toNat_nnOf (op : Word) : (nnOf op).toNat = op.toNat % 256 := BitVec.extractLsb'_toNat 0 8 op

theorem toNat_nnnOf (op : Word) : (nnnOf op).toNat = op.toNat % 4096 := BitVec.extractLsb'_toNat 0 12 op

/-- Settles O4: one lemma per field, the four nibbles from `toNat_extractLsb'_nibble`. -/
theorem opcodeFieldsAreItsDigits : Obligations.OpcodeFieldsAreItsDigits := fun op =>
  ⟨toNat_famOf op, val_xOf op, val_yOf op, toNat_nOf op, toNat_nnOf op, toNat_nnnOf op⟩

end Sys2Proof.Proofs
end

section
/-! Loading a program: what the load leaves in memory (spec R38, R220), and the invariant after reset. -/

namespace Sys2Proof.Proofs
open Sys2Proof.Machine

/-- Settles O15: each field of the invariant, of the literal state after reset. -/
theorem invariantHoldsAtReset : Obligations.InvariantHoldsAtReset :=
  ⟨Memory.wf_nil, by decide, by decide, trivial⟩

/-- Outside the font an unlisted address reads as zero. -/
theorem background_eq_zero {a : Nat} (h : a < 0x050 ∨ 0x0A0 ≤ a) : Memory.background a = 0x00#8 := by
  have hbase : fontBase = 0x050 := rfl
  have hlen : (fontLow ++ fontHigh).length = 80 := rfl
  unfold Memory.background
  split
  · rfl
  · rw [List.getD_eq_default]
    omega

/-- The byte at every address after a load: the ROM over the font over the background (R38, R220). -/
theorem read_loadedMemory (font : Vector Byte 80) {rom : List Byte} (h : rom.length ≤ 3584) (a : Nat) :
    Memory.read (loadedMemory font rom) a =
      if 0x200 ≤ a ∧ a < 0x200 + rom.length then rom.getD (a - 0x200) 0x00#8
      else if 0x050 ≤ a ∧ a < 0x0A0 then font.toList.getD (a - 0x050) 0x00#8
      else Memory.background a := by
  have hfont : fontBase + font.toList.length ≤ memSize := by simp [fontBase, memSize]
  have hrom : progBase + rom.length ≤ memSize := by simp only [progBase, memSize]; omega
  rw [loadedMemory, Memory.read_writeAll hrom (Memory.wf_writeAll hfont Memory.wf_nil),
    Memory.read_writeAll hfont Memory.wf_nil]
  simp [progBase, fontBase, Memory.read]

/-- Settles O45: memory from `read_loadedMemory`, every other element from the literal state of the load. -/
theorem loadPlacesRomFontAndZeroes : Obligations.LoadPlacesRomFontAndZeroes := by
  intro font rom s hlen
  have hload : ¬ romMax < rom.length := by simp only [romMax]; omega
  refine ⟨_, if_neg hload, fun k hk => ?rom, fun k => ?font, fun a ha => ?zero, fun x => ?reg, rfl, rfl, rfl,
    fun k => ?stack, rfl, rfl, fun c r => ?pixel, rfl, rfl⟩
  case rom =>
    refine (read_loadedMemory font hlen _).trans ?_
    rw [if_pos (by omega), Nat.add_sub_cancel_left]
  case font =>
    refine (read_loadedMemory font hlen _).trans ?_
    rw [if_neg (by omega), if_pos (by omega), Nat.add_sub_cancel_left]
    simp
  case zero =>
    refine (read_loadedMemory font hlen _).trans ?_
    rw [if_neg (by omega), if_neg (by omega), background_eq_zero (by omega)]
  case reg => simp [State.getV, State.reset]
  case stack => simp [State.reset]
  case pixel => simp [State.pixel, State.reset]

end Sys2Proof.Proofs
end

section
/-! What one instruction can do (spec R100-R176), said once: every whole-machine rule is then a case analysis over the
kinds of effect, not over the 35 instructions. -/

namespace Sys2Proof.Proofs
open Sys2Proof.Machine Sys2Proof.Claims

/-- The six instructions that skip under a condition (R100). -/
def IsSkip (i : Instr) : Prop :=
  (∃ x nn, i = .seImm x nn ∨ i = .sneImm x nn) ∨ (∃ x y, i = .seReg x y ∨ i = .sneReg x y) ∨
    ∃ x, i = .skp x ∨ i = .sknp x

/-- The three instructions that set I (R28). -/
def SetsIndex (i : Instr) : Prop := (∃ nnn, i = .ldI nnn) ∨ ∃ x, i = .addI x ∨ i = .ldF x

/-- `t` is `s` but for general registers that the table of R24 lists for `i`. -/
def WritesListedRegs (i : Instr) (s t : State) : Prop :=
  (∃ v, t = { s with v := v }) ∧ ∀ k : Reg, t.getV k ≠ s.getV k → mayWrite i k

theorem writesListedRegs_refl (i : Instr) (s : State) : WritesListedRegs i s s :=
  ⟨⟨_, rfl⟩, fun _ h => absurd rfl h⟩

/-- One more listed register may be written. -/
theorem WritesListedRegs.setV {i : Instr} {s t : State} (h : WritesListedRegs i s t) {x : Reg} (hx : mayWrite i x)
    (b : Byte) : WritesListedRegs i s (t.setV x b) := by
  obtain ⟨⟨v, rfl⟩, hk⟩ := h
  refine ⟨⟨_, rfl⟩, fun k hne => ?_⟩
  by_cases hkx : k = x
  · exact hkx ▸ hx
  · exact hk k (by rwa [State.getV_setV_ne _ _ hkx] at hne)

/-- One write of a listed register. -/
theorem writesListedRegs_setV {i : Instr} {s : State} {x : Reg} {b : Byte} (hx : mayWrite i x) :
    WritesListedRegs i s (s.setV x b) :=
  (writesListedRegs_refl i s).setV hx b

/-- The flag first, then the result (R15), both of them listed. -/
theorem writesListedRegs_flag {i : Instr} {s : State} {x : Reg} {f b : Byte} (hf : mayWrite i vf)
    (hx : mayWrite i x) : WritesListedRegs i s ((s.setV vf f).setV x b) :=
  (writesListedRegs_setV hf).setV hx b

/-- `LD Vx, [I]` writes V0 to Vx (R145). -/
theorem writesListedRegs_loadBlock (x : Reg) (s : State) :
    WritesListedRegs (.loadRegs x) s (s.loadBlock (x.val + 1)) := by
  refine ⟨⟨_, s.loadBlock_frame _⟩, fun k hne => ?_⟩
  rw [State.getV_loadBlock s (by omega)] at hne
  by_contra hk
  exact hne (if_neg fun hlt => hk (Nat.le_of_lt_succ hlt))

/-- Everything that executing `i` in `s` can leave, `s` being the state after the fetch and the advance. -/
inductive ExecEffect (s : State) : Instr → State → Prop
  | noop (nnn : Addr12) : ExecEffect s (.sys nnn) s
  | fault (i : Instr) (k : Fault) : ExecEffect s i (s.raise k)
  | regs {i : Instr} {t : State} (h : WritesListedRegs i s t) : ExecEffect s i t
  | index {i : Instr} (hi : SetsIndex i) (w : Word) : ExecEffect s i (s.setI w)
  | delay (x : Reg) (b : Byte) : ExecEffect s (.ldDtVx x) (s.setDt b)
  | sound (x : Reg) (b : Byte) : ExecEffect s (.ldStVx x) (s.setSt b)
  | store {i : Instr} (hi : ∃ x, i = .ldB x ∨ i = .storeRegs x) (m : List Host.Cell)
      (hm : Memory.wf s.mem = true → Memory.wf m = true) : ExecEffect s i { s with mem := m }
  | clear : ExecEffect s .cls s.clearScreen
  | draw (x y : Reg) (n : BitVec 4) (v : Vector Byte 16) (fb : Vector (Vector Bool 64) 32)
      (hv : ∀ k : Reg, k ≠ vf → { s with v := v, fb := fb }.getV k = s.getV k) :
      ExecEffect s (.drw x y n) { s with v := v, fb := fb }
  | jump (nnn : Addr12) : ExecEffect s (.jp nnn) (s.setPc (addrOperand nnn))
  | jumpV0 (nnn : Addr12) : ExecEffect s (.jpV0 nnn) (s.setPc (s.v0Target nnn))
  | call (nnn : Addr12) (h : s.sp.val < 16) : ExecEffect s (.call nnn)
      { s with sp := ⟨s.sp.val + 1, by omega⟩, stack := s.stack.set s.sp.val s.pc h, pc := addrOperand nnn }
  | ret (h : s.sp.val ≠ 0) : ExecEffect s .ret
      { s with sp := ⟨s.sp.val - 1, by omega⟩, pc := s.stack[s.sp.val - 1]'(by omega) }
  | skipIf {i : Instr} (hi : IsSkip i) (c : Bool) : ExecEffect s i (s.skipIf c)
  | keyWait (x : Reg) : ExecEffect s (.ldVxK x) (s.setPc (s.pc - 2#16))

section
variable {s t : State}

theorem execEffect_ret (h : execRet s = .next t) : ExecEffect s .ret t := by
  cases h
  by_cases h0 : s.sp.val = 0
  · simp only [State.pop_of_empty h0]
    exact .fault _ _
  · simp only [State.pop_of_pos h0]
    exact .ret h0

theorem execEffect_call {nnn : Addr12} (h : execCall nnn s = .next t) : ExecEffect s (.call nnn) t := by
  cases h
  by_cases hsp : s.sp.val < 16
  · simp only [State.push_of_lt s.pc hsp]
    exact .call nnn hsp
  · simp only [State.push_of_full s.pc (show s.sp.val = 16 by omega)]
    exact .fault _ _

theorem execEffect_drw {x y : Reg} {n : BitVec 4} (h : execDrw x y n s = .next t) :
    ExecEffect s (.drw x y n) t := by
  cases h
  split
  · obtain ⟨v, fb, hframe⟩ := (s.setV vf 0x00#8).drawSprite_frame s.i.toNat (originColumn (s.getV x))
      (originRow (s.getV y)) n.toNat
    rw [hframe]
    refine .draw x y n v fb fun k hk => ?_
    have hregs := (s.setV vf 0x00#8).getV_drawSprite_ne s.i.toNat (originColumn (s.getV x))
      (originRow (s.getV y)) n.toNat hk
    rw [hframe, State.getV_setV_ne s _ hk] at hregs
    exact hregs
  · exact .fault _ _

/-- A key instruction skips, or faults on a key index that names no key (R171, R172). -/
theorem execEffect_keySkip {i : Instr} (hi : IsSkip i) (valid c : Bool) :
    ExecEffect s i (if valid then s.skipIf c else s.raise .keyIndexOutOfRange) := by
  split
  · exact .skipIf hi c
  · exact .fault _ _

theorem execEffect_ldVxK {x : Reg} (h : execLdVxK x s = .next t) : ExecEffect s (.ldVxK x) t := by
  cases h
  split
  · exact .regs (writesListedRegs_setV rfl)
  · exact .keyWait x

theorem execEffect_ldB {x : Reg} (h : execLdB x s = .next t) : ExecEffect s (.ldB x) t := by
  cases h
  split
  · exact .fault _ _
  · rw [State.storeBcd_frame]
    exact .store ⟨x, .inl rfl⟩ _ fun hm => State.storeBcd_wf hm _

theorem execEffect_storeRegs {x : Reg} (h : execStoreRegs x s = .next t) : ExecEffect s (.storeRegs x) t := by
  cases h
  split
  · exact .fault _ _
  · rw [State.storeBlock_frame]
    exact .store ⟨x, .inr rfl⟩ _ fun hm => State.storeBlock_wf hm _

theorem execEffect_loadRegs {x : Reg} (h : execLoadRegs x s = .next t) : ExecEffect s (.loadRegs x) t := by
  cases h
  split
  · exact .fault _ _
  · exact .regs (writesListedRegs_loadBlock x s)

/-- Every instruction does one of the things `ExecEffect` lists. -/
theorem execEffect_of_exec : ∀ {i : Instr}, exec i s = .next t → ExecEffect s i t
  | .cls, rfl => .clear
  | .ret, h => execEffect_ret h
  | .jp nnn, rfl => .jump nnn
  | .call _, h => execEffect_call h
  | .seImm x nn, rfl => .skipIf (.inl ⟨x, nn, .inl rfl⟩) _
  | .sneImm x nn, rfl => .skipIf (.inl ⟨x, nn, .inr rfl⟩) _
  | .seReg x y, rfl => .skipIf (.inr (.inl ⟨x, y, .inl rfl⟩)) _
  | .sneReg x y, rfl => .skipIf (.inr (.inl ⟨x, y, .inr rfl⟩)) _
  | .ldImm _ _, rfl | .addImm _ _, rfl | .rnd _ _, rfl | .ldVxDt _, rfl => .regs (writesListedRegs_setV rfl)
  | .ldReg _ _, rfl | .orReg _ _, rfl | .andReg _ _, rfl | .xorReg _ _, rfl => .regs (writesListedRegs_setV rfl)
  | .addReg _ _, rfl | .subReg _ _, rfl | .subnReg _ _, rfl | .shr _ _, rfl | .shl _ _, rfl =>
    .regs (writesListedRegs_flag (.inr rfl) (.inl rfl))
  | .ldI nnn, rfl => .index (.inl ⟨nnn, rfl⟩) _
  | .addI x, rfl => .index (.inr ⟨x, .inl rfl⟩) _
  | .ldF x, rfl => .index (.inr ⟨x, .inr rfl⟩) _
  | .jpV0 nnn, rfl => .jumpV0 nnn
  | .drw _ _ _, h => execEffect_drw h
  | .skp x, rfl => execEffect_keySkip (.inr (.inr ⟨x, .inl rfl⟩)) _ _
  | .sknp x, rfl => execEffect_keySkip (.inr (.inr ⟨x, .inr rfl⟩)) _ _
  | .ldVxK _, h => execEffect_ldVxK h
  | .ldDtVx x, rfl => .delay x _
  | .ldStVx x, rfl => .sound x _
  | .ldB _, h => execEffect_ldB h
  | .storeRegs _, h => execEffect_storeRegs h
  | .loadRegs _, h => execEffect_loadRegs h
  | .sys nnn, rfl => .noop nnn

end

/-! ### Who writes what (R24, R25, R28-R35) -/

/-- Settles O52: of the effects only `regs` and `draw` touch a general register. -/
theorem generalRegistersAreWrittenAsTheTableLists : Obligations.GeneralRegistersAreWrittenAsTheTableLists := by
  intro i s t k h hne
  cases execEffect_of_exec h with
  | regs hregs => exact hregs.2 k hne
  | draw x y n v fb hv => exact by_contra fun hk => hne (hv k hk)
  | skipIf => exact absurd (State.getV_congr (State.skipIf_v _ _) k) hne
  | noop | fault | index | delay | sound | store | clear | jump | jumpV0 | call | ret | keyWait => exact absurd rfl hne

/-- Settles O53: each of the special registers is written by one kind of effect, SP by two. -/
theorem specialRegistersAreWrittenByTheirInstructions :
    Obligations.SpecialRegistersAreWrittenByTheirInstructions := by
  intro i s t h
  cases execEffect_of_exec h with
  | regs hregs =>
    obtain ⟨⟨v, rfl⟩, -⟩ := hregs
    simp
  | index hi w => simpa [SetsIndex] using fun _ => hi
  | noop | fault | delay | sound | store | clear | draw | jump | jumpV0 | call | ret | skipIf | keyWait => simp

/-- A skip adds 2 to PC. -/
theorem trunc16_add_two (w : Word) : trunc16 (w.toNat + 2) = w + 2#16 := by
  apply BitVec.eq_of_toNat_eq
  simp

/-- Settles O54: PC is written by the jumps and their kin, by a skip that is taken, and by the key wait. -/
theorem pcMovesOnlyByJumpsSkipsAndTheKeyWait : Obligations.PcMovesOnlyByJumpsSkipsAndTheKeyWait := by
  intro i s t h hne
  cases execEffect_of_exec h with
  | regs hregs =>
    obtain ⟨⟨v, rfl⟩, -⟩ := hregs
    exact absurd rfl hne
  | ret => exact .inl (.inl rfl)
  | jump nnn => exact .inl (.inr ⟨nnn, .inl rfl⟩)
  | call nnn => exact .inl (.inr ⟨nnn, .inr (.inl rfl)⟩)
  | jumpV0 nnn => exact .inl (.inr ⟨nnn, .inr (.inr rfl)⟩)
  | skipIf hi c =>
    cases c with
    | false => exact absurd rfl hne
    | true => exact .inr (.inl ⟨trunc16_add_two s.pc, hi⟩)
  | keyWait x => exact .inr (.inr ⟨rfl, x, rfl⟩)
  | noop | fault | index | delay | sound | store | clear | draw => exact absurd rfl hne

end Sys2Proof.Proofs
end

section
/-! The invariant of the machine (spec R26, R34, R52, R92, R104, R190): the boundary, the advance and every effect of an
instruction keep it. The bound on PC turns on the advance: a fetch succeeds at 0xFFE or below, so the execute phase
starts with PC at most 0x1000, and a skip or a jump goes at most to 0x10FE. -/

namespace Sys2Proof.Proofs
open Sys2Proof.Machine Sys2Proof.Claims

/-! ### A word the decoder calls ambiguous is one (R75) -/

/-- Family 0 with a zero `x` is fixed by its low byte. -/
theorem word_eq_of_fam0_x0 {op : Word} (hfam : famOf op = 0x0#4) (hx : xOf op = 0) :
    op = encImm 0x0#4 0 (nnOf op) := by
  conv_lhs => rw [word_eq_encImm op, hfam, hx]

theorem isAmbiguousWord_of_decodeFam0 {r : AmbiguousDecode} {op : Word} {band : AmbBand} (hfam : famOf op = 0x0#4)
    (h : decodeFam0 r op = .ambiguous band) : isAmbiguousWord op = true := by
  unfold decodeFam0 at h
  split_ifs at h with hcls hret hE0 hEE
  · have hx : xOf op ≠ 0 := fun hx => hcls (by rw [word_eq_of_fam0_x0 hfam hx, hE0]; rfl)
    simp [isAmbiguousWord, hfam, hx, hE0]
  · have hx : xOf op ≠ 0 := fun hx => hret (by rw [word_eq_of_fam0_x0 hfam hx, hEE]; rfl)
    simp [isAmbiguousWord, hfam, hx, hEE]

theorem decodeFam8_ne_ambiguous (op : Word) (band : AmbBand) : decodeFam8 op ≠ .ambiguous band := by
  simp [decodeFam8, ite_eq_iff]

theorem decodeFamE_ne_ambiguous (op : Word) (band : AmbBand) : decodeFamE op ≠ .ambiguous band := by
  simp [decodeFamE, ite_eq_iff]

theorem decodeFamF_ne_ambiguous (op : Word) (band : AmbBand) : decodeFamF op ≠ .ambiguous band := by
  simp [decodeFamF, ite_eq_iff]

/-- Only the words of the three bands of R75 are ever refused. -/
theorem isAmbiguousWord_of_decodeWord {r : AmbiguousDecode} {op : Word} {band : AmbBand}
    (h : decodeWord r op = .ambiguous band) : isAmbiguousWord op = true := by
  simp only [decodeWord, ite_eq_iff, reduceCtorEq, and_false, false_or, decodeFam8_ne_ambiguous,
    decodeFamE_ne_ambiguous, decodeFamF_ne_ambiguous, or_false] at h
  obtain ⟨h0, h⟩ | ⟨-, -, -, -, -, ⟨h5, hn, -⟩ | ⟨-, -, -, -, h9, hn, -⟩⟩ := h
  · exact isAmbiguousWord_of_decodeFam0 h0 h
  · simp [isAmbiguousWord, h5, hn]
  · simp [isAmbiguousWord, h9, hn]

/-! ### The range of PC after the advance (R92) -/

/-- The execute phase starts with PC at the instruction's address + 2, the address being 0xFFE at most (R91, R92). -/
def PcAdvanced (s : State) : Prop := 2 ≤ s.pc.toNat ∧ s.pc.toNat ≤ 0x1000

theorem pcAdvanced_advance {s : State} (h : s.pc.toNat + 1 < memSize) (op : Word) : PcAdvanced (s.advance op) := by
  simp only [memSize] at h
  simp only [PcAdvanced, State.advance_pc, toNat_trunc16]
  omega

/-- The address of the instruction under execution (R93). -/
theorem toNat_pc_sub_two_le {s : State} (hpc : PcAdvanced s) : (s.pc - 2#16).toNat ≤ 0xFFE := by
  obtain ⟨hlo, hhi⟩ := hpc
  bv_omega

theorem toNat_addrOperand_le (nnn : Addr12) : (addrOperand nnn).toNat ≤ 0xFFF := by
  simp only [addrOperand, BitVec.toNat_setWidth]
  omega

theorem toNat_v0Target_le (s : State) (nnn : Addr12) : (s.v0Target nnn).toNat ≤ 0x10FE := by
  simp only [State.v0Target, toNat_trunc16]
  omega

/-! ### Each part of a step keeps the invariant -/

section
variable {s t : State} (hs : s.Inv)
include hs

theorem inv_boundary : s.boundary.Inv := ⟨hs.mem_wf, hs.pc_le, hs.stack_le, hs.status_legal⟩

theorem inv_raiseFetch (hpc : memSize ≤ s.pc.toNat + 1) : s.raiseFetch.Inv :=
  ⟨hs.mem_wf, hs.pc_le, hs.stack_le, rfl, Nat.le_of_succ_le_succ hpc⟩

theorem inv_advance (hpc : s.pc.toNat + 1 < memSize) (op : Word) : (s.advance op).Inv :=
  ⟨hs.mem_wf, (pcAdvanced_advance hpc op).2.trans (by decide), hs.stack_le, hs.status_legal⟩

theorem inv_refuseWord (hpc : PcAdvanced s) (hop : isAmbiguousWord s.opc = true) : s.refuseWord.Inv :=
  ⟨hs.mem_wf, hs.pc_le, hs.stack_le, rfl, toNat_pc_sub_two_le hpc, hop⟩

theorem inv_raise (hpc : PcAdvanced s) (k : Fault) : (s.raise k).Inv :=
  ⟨hs.mem_wf, hs.pc_le, hs.stack_le, toNat_pc_sub_two_le hpc⟩

theorem inv_setPc {w : Word} (hw : w.toNat ≤ 0x10FE) : (s.setPc w).Inv :=
  ⟨hs.mem_wf, hw, hs.stack_le, hs.status_legal⟩

theorem inv_skipIf (hpc : PcAdvanced s) (c : Bool) : (s.skipIf c).Inv := by
  cases c with
  | false => exact hs
  | true =>
    obtain ⟨-, hhi⟩ := hpc
    refine inv_setPc hs ?_
    rw [toNat_trunc16]
    omega

/-- A push of an address of at most 0x1000 keeps the bound of every slot (R104). -/
theorem stack_set_le {w : Word} (hw : w.toNat ≤ 0x1000) (j : Nat) (hj : j < 16) (k : Fin 16) :
    ((s.stack.set j w hj)[k]).toNat ≤ 0x1000 := by
  simp only [Fin.getElem_fin, Vector.getElem_set]
  split
  · exact hw
  · exact hs.stack_le k

/-- What an instruction leaves meets the invariant, whichever effect it has. -/
theorem inv_of_execEffect (hpc : PcAdvanced s) {i : Instr} (h : ExecEffect s i t) : t.Inv := by
  cases h with
  | noop => exact hs
  | fault i k => exact inv_raise hs hpc k
  | regs hregs =>
    obtain ⟨⟨v, rfl⟩, -⟩ := hregs
    exact ⟨hs.mem_wf, hs.pc_le, hs.stack_le, hs.status_legal⟩
  | store hi m hm => exact ⟨hm hs.mem_wf, hs.pc_le, hs.stack_le, hs.status_legal⟩
  | jump nnn => exact inv_setPc hs ((toNat_addrOperand_le nnn).trans (by decide))
  | jumpV0 nnn => exact inv_setPc hs (toNat_v0Target_le s nnn)
  | call nnn hsp =>
    exact ⟨hs.mem_wf, (toNat_addrOperand_le nnn).trans (by decide), stack_set_le hs hpc.2 _ hsp, hs.status_legal⟩
  | ret h0 =>
    have htarget : (s.stack[s.sp.val - 1]'(by omega)).toNat ≤ 0x1000 := hs.stack_le ⟨s.sp.val - 1, by omega⟩
    exact ⟨hs.mem_wf, htarget.trans (by decide), hs.stack_le, hs.status_legal⟩
  | skipIf hi c => exact inv_skipIf hs hpc c
  | keyWait x => exact inv_setPc hs ((toNat_pc_sub_two_le hpc).trans (by decide))
  | index | delay | sound | clear | draw => exact ⟨hs.mem_wf, hs.pc_le, hs.stack_le, hs.status_legal⟩

/-- The execute phase keeps the invariant, given that the latch holds the word that was decoded (R93). -/
theorem inv_of_execDecoded (hpc : PcAdvanced s) {r : AmbiguousDecode}
    (h : execDecoded (decodeWord r s.opc) s = .next t) : t.Inv := by
  cases hd : decodeWord r s.opc with
  | instr i =>
    rw [hd] at h
    exact inv_of_execEffect hs hpc (execEffect_of_exec h)
  | unrecognised =>
    rw [hd] at h
    cases h
    exact hs
  | ambiguous band =>
    rw [hd] at h
    cases h
    exact inv_refuseWord hs hpc (isAmbiguousWord_of_decodeWord hd)

end

/-- Settles O16: the three things a step can do (`stepWith_cases`) keep the invariant. -/
theorem everyStepKeepsTheInvariant : Obligations.EveryStepKeepsTheInvariant := by
  intro r s t hs h
  have hb := inv_boundary hs
  obtain ⟨-, hstep⟩ | ⟨-, hpc, hstep⟩ | ⟨-, hpc, op, -, hstep⟩ := stepWith_cases r s
  · cases hstep.symm.trans h
    exact hb
  · cases hstep.symm.trans h
    exact inv_raiseFetch hb hpc
  · exact inv_of_execDecoded (inv_advance hb hpc op) (pcAdvanced_advance hpc op) (hstep.symm.trans h)

end Sys2Proof.Proofs
end

section
/-! The sound timer is read by no instruction (spec R31): every operation commutes with a write of ST. -/

namespace Sys2Proof.Proofs
open Sys2Proof.Machine Sys2Proof.Claims

/-- A map that commutes with each pass of a loop commutes with the loop. -/
theorem forUpTo_commute {α : Type} {f : Nat → α → α} {g : α → α} {n : Nat} {s : α}
    (h : ∀ k t, f k (g t) = g (f k t)) : forUpTo n f (g s) = g (forUpTo n f s) := by
  induction n with
  | zero => rfl
  | succ n ih => exact (congrArg (f n) ih).trans (h n _)

section
variable (s : State) (b : Byte)

theorem skipIf_setSt (c : Bool) : (s.setSt b).skipIf c = (s.skipIf c).setSt b := by
  cases c <;> rfl

theorem poke_setSt (a : Nat) (v : Byte) : (s.setSt b).poke a v = (s.poke a v).setSt b := by
  rw [State.poke_eq, State.poke_eq]
  rfl

theorem storeBcd_setSt (v : Byte) : (s.setSt b).storeBcd v = (s.storeBcd v).setSt b := by
  simp only [State.storeBcd, State.effAddr, State.setSt_i, poke_setSt]

theorem storeBlock_setSt (n : Nat) : (s.setSt b).storeBlock n = (s.storeBlock n).setSt b := by
  unfold State.storeBlock
  exact forUpTo_commute (g := fun t : State => t.setSt b) fun _ t => poke_setSt t b _ _

theorem loadBlock_setSt (n : Nat) : (s.setSt b).loadBlock n = (s.loadBlock n).setSt b := by
  unfold State.loadBlock
  exact forUpTo_commute (g := fun t : State => t.setSt b) fun _ _ => rfl

theorem xorPixel_setSt (c : Fin 64) (r : Fin 32) : (s.setSt b).xorPixel c r = (s.xorPixel c r).setSt b := by
  rw [State.xorPixel_eq, State.xorPixel_eq]
  rfl

theorem drawRow_setSt (x0 : Nat) (r : Fin 32) (row : Byte) :
    (s.setSt b).drawRow x0 r row = (s.drawRow x0 r row).setSt b := by
  unfold State.drawRow
  refine forUpTo_commute (g := fun t : State => t.setSt b) fun k t => ?_
  split
  · exact xorPixel_setSt t b _ r
  · rfl

theorem drawSprite_setSt (a x0 y0 n : Nat) : (s.setSt b).drawSprite a x0 y0 n = (s.drawSprite a x0 y0 n).setSt b := by
  unfold State.drawSprite
  exact forUpTo_commute (g := fun t : State => t.setSt b) fun _ t => drawRow_setSt t b x0 _ _

/-- A choice whose condition ignores ST commutes with a write of ST when both of its branches do. -/
theorem next_ite_setSt {c : Prop} [Decidable c] {t e t' e' : State} (ht : t' = t.setSt b) (he : e' = e.setSt b) :
    (.next (if c then t' else e') : Host.Outcome State Fault Refusal) = .next ((if c then t else e).setSt b) := by
  subst ht he
  split <;> rfl

theorem execRet_setSt {t : State} (h : execRet s = .next t) : execRet (s.setSt b) = .next (t.setSt b) := by
  cases h
  by_cases h0 : s.sp.val = 0
  · simp only [execRet, State.pop_of_empty h0, State.pop_of_empty (s := s.setSt b) h0]
    rfl
  · simp only [execRet, State.pop_of_pos h0, State.pop_of_pos (s := s.setSt b) h0]
    rfl

theorem execCall_setSt {nnn : Addr12} {t : State} (h : execCall nnn s = .next t) :
    execCall nnn (s.setSt b) = .next (t.setSt b) := by
  cases h
  by_cases hsp : s.sp.val < 16
  · simp only [execCall, State.push_of_lt _ hsp, State.push_of_lt (s := s.setSt b) _ hsp]
    rfl
  · have hfull : s.sp.val = 16 := by omega
    simp only [execCall, State.push_of_full _ hfull, State.push_of_full (s := s.setSt b) _ hfull]
    rfl

theorem execLdVxK_setSt {x : Reg} {t : State} (h : execLdVxK x s = .next t) :
    execLdVxK x (s.setSt b) = .next (t.setSt b) := by
  cases h
  cases hk : firstKey s.keys <;> simp only [execLdVxK, State.setSt_keys, hk] <;> rfl

/-- Every instruction but `LD ST, Vx` does the same with another value in ST, and leaves it there. -/
theorem exec_setSt {t : State} : ∀ {i : Instr}, exec i s = .next t → (∀ x, i ≠ .ldStVx x) →
    exec i (s.setSt b) = .next (t.setSt b)
  | .ldStVx x, _, hi => absurd rfl (hi x)
  | .ret, h, _ => execRet_setSt s b h
  | .call _, h, _ => execCall_setSt s b h
  | .ldVxK _, h, _ => execLdVxK_setSt s b h
  | .seImm _ _, rfl, _ | .sneImm _ _, rfl, _ | .seReg _ _, rfl, _ | .sneReg _ _, rfl, _ =>
    congrArg _ (skipIf_setSt s b _)
  | .skp _, rfl, _ | .sknp _, rfl, _ => next_ite_setSt b (skipIf_setSt s b _) rfl
  | .drw _ _ _, rfl, _ => next_ite_setSt b (drawSprite_setSt (s.setV vf 0x00#8) b _ _ _ _) rfl
  | .ldB _, rfl, _ => next_ite_setSt b rfl (storeBcd_setSt s b _)
  | .storeRegs _, rfl, _ => next_ite_setSt b rfl (storeBlock_setSt s b _)
  | .loadRegs _, rfl, _ => next_ite_setSt b rfl (loadBlock_setSt s b _)
  | .cls, rfl, _ | .jp _, rfl, _ | .jpV0 _, rfl, _ | .sys _, rfl, _ => rfl
  | .ldImm _ _, rfl, _ | .addImm _ _, rfl, _ | .rnd _ _, rfl, _ | .ldVxDt _, rfl, _ | .ldDtVx _, rfl, _ => rfl
  | .ldReg _ _, rfl, _ | .orReg _ _, rfl, _ | .andReg _ _, rfl, _ | .xorReg _ _, rfl, _ => rfl
  | .addReg _ _, rfl, _ | .subReg _ _, rfl, _ | .subnReg _ _, rfl, _ | .shr _ _, rfl, _ | .shl _ _, rfl, _ => rfl
  | .ldI _, rfl, _ | .addI _, rfl, _ | .ldF _, rfl, _ => rfl

end

/-- Settles O55: `exec_setSt`; and `LD ST, Vx` overwrites ST without reading it. -/
theorem noInstructionReadsTheSoundTimer : Obligations.NoInstructionReadsTheSoundTimer := by
  refine fun i s t b h => ⟨exec_setSt s b h, ?_⟩
  rintro ⟨x, rfl⟩
  cases h
  rfl

end Sys2Proof.Proofs
end

section
/-! Decoding the word of an instruction gives the instruction back (spec R70-R74), and its two bytes lie high byte first
(R54). -/

namespace Sys2Proof.Proofs

/-- A word is its two bytes, the byte at the lower address worth 256. -/
theorem toNat_wordOfBytes (hi lo : Byte) : (wordOfBytes hi lo).toNat = hi.toNat * 256 + lo.toNat := by
  have happend : (wordOfBytes hi lo).toNat = hi.toNat <<< 8 ||| lo.toNat := BitVec.toNat_append hi lo
  rw [happend, ← Nat.shiftLeft_add_eq_or_of_lt lo.isLt, Nat.shiftLeft_eq]

/-- The bytes the encoder lays out make its word again. -/
theorem wordOfBytes_extractLsb' (op : Word) : wordOfBytes (op.extractLsb' 8 8) (op.extractLsb' 0 8) = op :=
  BitVec.extractLsb'_append_extractLsb'

/-- `SYS` has the lowest priority in family 0: its words are those whose low byte is neither E0 nor EE (R74). -/
theorem decodeWord_encode_sys (r : AmbiguousDecode) {nnn : Addr12} (h : (Instr.sys nnn).wf = true) :
    decodeWord r (encAddr 0x0#4 nnn) = .instr (.sys nnn) := by
  have hlow : nnOf (encAddr 0x0#4 nnn) ≠ 0xE0#8 ∧ nnOf (encAddr 0x0#4 nnn) ≠ 0xEE#8 := by
    simpa [Instr.wf, sysLowByteTaken] using h
  obtain ⟨hE0, hEE⟩ := hlow
  have hcls : encAddr 0x0#4 nnn ≠ 0x00E0#16 := fun e => hE0 (by rw [e]; rfl)
  have hret : encAddr 0x0#4 nnn ≠ 0x00EE#16 := fun e => hEE (by rw [e]; rfl)
  rw [decodeWord, if_pos (famOf_encAddr _ _), decodeFam0, if_neg hcls, if_neg hret, if_neg hE0, if_neg hEE,
    nnnOf_encAddr]

/-- The decoder undoes the encoder on well-formed instructions: the fields that select the row are constants of the
encoding, and the operand fields read back what was laid out (R71, R74). -/
theorem decodeWord_encode (r : AmbiguousDecode) : ∀ {i : Instr}, i.wf = true → decodeWord r (encode i) = .instr i
  | .sys _, h => decodeWord_encode_sys r h
  | .cls, _ | .ret, _ => rfl
  | .jp _, _ | .call _, _ | .ldI _, _ | .jpV0 _, _
  | .seImm _ _, _ | .sneImm _ _, _ | .ldImm _ _, _ | .addImm _ _, _ | .rnd _ _, _
  | .seReg _ _, _ | .sneReg _ _, _ | .drw _ _ _, _ => by simp [encode, decodeWord]
  | .ldReg _ _, _ | .orReg _ _, _ | .andReg _ _, _ | .xorReg _ _, _
  | .addReg _ _, _ | .subReg _ _, _ | .subnReg _ _, _ | .shr _ _, _ | .shl _ _, _ => by
    simp [encode, decodeWord, decodeFam8]
  | .skp _, _ | .sknp _, _ => by simp [encode, decodeWord, decodeFamE]
  | .ldVxDt _, _ | .ldVxK _, _ | .ldDtVx _, _ | .ldStVx _, _
  | .addI _, _ | .ldF _, _ | .ldB _, _ | .storeRegs _, _ | .loadRegs _, _ => by simp [encode, decodeWord, decodeFamF]

/-- Settles O8: the word of two bytes is `toNat_wordOfBytes`, and the round trip is `decodeWord_encode`. -/
theorem instructionsAreTwoBytesBigEndian : Obligations.InstructionsAreTwoBytesBigEndian := by
  refine ⟨fun _ hi lo _ => ⟨wordOfBytes hi lo, toNat_wordOfBytes hi lo, rfl⟩, fun _ _ => ⟨rfl, rfl⟩,
    fun r i rest hi => ?_⟩
  simp only [encodeBytes, List.cons_append, List.nil_append, decodeBytes, wordOfBytes_extractLsb',
    decodeWord_encode r hi]

end Sys2Proof.Proofs
end

section
/-! The two instructions that write memory (spec R50, R143, R144), and that the next fetch sees what they stored (R55,
R66, R226). -/

namespace Sys2Proof.Proofs
open Sys2Proof.Machine Sys2Proof.Claims

/-- Settles O51: of the effects only `store` touches memory. -/
theorem onlyBcdAndStoreWriteMemory : Obligations.OnlyBcdAndStoreWriteMemory := by
  intro i s t h hne
  cases execEffect_of_exec h with
  | store hi => exact hi
  | regs hregs =>
    obtain ⟨⟨v, rfl⟩, -⟩ := hregs
    exact absurd rfl hne
  | skipIf => exact absurd (State.skipIf_mem _ _) hne
  | noop | fault | index | delay | sound | clear | draw | jump | jumpV0 | call | ret | keyWait => exact absurd rfl hne

/-! ### What the two stores leave -/

theorem onlyMem_storeBlock (s : State) (n : Nat) : OnlyMem s (s.storeBlock n) := s.storeBlock_frame n

theorem onlyMem_storeBcd (s : State) (b : Byte) : OnlyMem s (s.storeBcd b) := s.storeBcd_frame b

theorem toNat_hundreds (b : Byte) : (hundreds b).toNat = b.toNat / 100 := by
  rw [hundreds, toNat_trunc8]
  omega

theorem toNat_tens (b : Byte) : (tens b).toNat = b.toNat / 10 % 10 := by
  rw [tens, toNat_trunc8]
  omega

theorem toNat_ones (b : Byte) : (ones b).toNat = b.toNat % 10 := by
  rw [ones, toNat_trunc8]
  omega

section
variable {s : State} {x : Reg}

/-- `LD [I], Vx` inside memory is the block store (R144). -/
theorem exec_storeRegs_of_lt (h : s.i.toNat + x.val < 4096) :
    exec (.storeRegs x) s = .next (s.storeBlock (x.val + 1)) :=
  congrArg _ (if_neg (Nat.not_le.mpr h))

/-- `LD B, Vx` inside memory is the store of the three digits (R143). -/
theorem exec_ldB_of_lt (h : s.i.toNat + 2 < 4096) : exec (.ldB x) s = .next (s.storeBcd (s.getV x)) :=
  congrArg _ (if_neg (Nat.not_le.mpr h))

theorem peek_storeBlock_eq_byteAfterStore (hm : Memory.wf s.mem = true) (h : s.i.toNat + x.val < 4096) (a : Nat) :
    (s.storeBlock (x.val + 1)).peek a = byteAfterStore x s a := by
  rw [State.peek_storeBlock hm (by omega), byteAfterStore]
  exact if_congr (and_congr_right' Nat.lt_succ_iff) rfl rfl

theorem toNat_peek_storeBcd_eq_byteAfterBcd (hm : Memory.wf s.mem = true) (h : s.i.toNat + 2 < 4096) (a : Nat) :
    ((s.storeBcd (s.getV x)).peek a).toNat = byteAfterBcd x s a := by
  simp only [State.peek_storeBcd hm h, byteAfterBcd, apply_ite BitVec.toNat, toNat_hundreds, toNat_tens, toNat_ones]
  split_ifs <;> omega

end

/-! ### The fetch after a store -/

/-- The next step runs the word of whatever two bytes memory holds at PC. -/
theorem nextRuns_peek {t : State} (hpc : t.pc.toNat + 1 < 4096) :
    NextRuns t (t.peek t.pc.toNat).toNat (t.peek (t.pc.toNat + 1)).toNat := by
  refine ⟨_, toNat_wordOfBytes _ _, State.fetch_of_lt hpc, fun hrun r => ?_⟩
  obtain ⟨hhalt, -⟩ | ⟨-, hge, -⟩ | ⟨-, -, op, rfl, hstep⟩ := stepWith_cases r t
  · exact absurd hrun hhalt
  · exact absurd hpc (Nat.not_lt.mpr hge)
  · exact hstep

/-- A write of memory alone leaves PC and the status, and the next step runs the bytes it leaves at PC. -/
theorem store_then_nextRuns {s t : State} (hframe : OnlyMem s t) (hpc : s.pc.toNat + 1 < 4096) :
    t.pc = s.pc ∧ t.status = s.status ∧ NextRuns t (t.peek s.pc.toNat).toNat (t.peek (s.pc.toNat + 1)).toNat := by
  have hpcs : t.pc = s.pc := (congrArg State.pc hframe).trans rfl
  refine ⟨hpcs, (congrArg State.status hframe).trans rfl, ?_⟩
  rw [← hpcs] at hpc ⊢
  exact nextRuns_peek hpc

/-- Settles O35: each store writes memory alone, so the next step runs the bytes at PC (`store_then_nextRuns`), which the
laws of the two stores give. -/
theorem nextFetchSeesTheStore : Obligations.NextFetchSeesTheStore := by
  refine fun x s hm hpc => ⟨fun hi => ⟨_, exec_storeRegs_of_lt hi, ?_⟩, fun hi => ⟨_, exec_ldB_of_lt hi, ?_⟩⟩
  · rw [← peek_storeBlock_eq_byteAfterStore hm hi, ← peek_storeBlock_eq_byteAfterStore hm hi]
    exact store_then_nextRuns (onlyMem_storeBlock s _) hpc
  · rw [← toNat_peek_storeBcd_eq_byteAfterBcd hm hi, ← toNat_peek_storeBcd_eq_byteAfterBcd hm hi]
    exact store_then_nextRuns (onlyMem_storeBcd s _) hpc

end Sys2Proof.Proofs
end

section
/-! Words and instructions (spec R70-R76): a word that decodes to an instruction is that instruction's word, a word that
a row of the opcode map selects decodes to that row, and which words are ambiguous or unrecognised. -/

namespace Sys2Proof.Proofs
open Sys2Proof.Machine Sys2Proof.Claims

variable {r : AmbiguousDecode} {op : Word} {f n : BitVec 4} {x : Reg} {nn : Byte} {b : AmbBand} {i j : Instr}
  {d : Decoded}

/-- Settles O1: the round trip is `decodeWord_encode`. -/
theorem decodeOfEncodeGivesTheInstruction : Obligations.DecodeOfEncodeGivesTheInstruction :=
  fun r _ hwf => decodeWord_encode r hwf

/-- Settles O7: the decoder evaluated on each of the ten words. -/
theorem writtenOutWordsDecode : Obligations.WrittenOutWordsDecode :=
  ⟨rfl, rfl, rfl, rfl, rfl, rfl, rfl, rfl, rfl, rfl⟩

/-! ### A word is fixed by its fields (R71) -/

theorem encAddr_of_famOf (hf : famOf op = f) : encAddr f (nnnOf op) = op := by
  rw [← hf, ← word_eq_encAddr]

theorem encImm_of_famOf (hf : famOf op = f) : encImm f (xOf op) (nnOf op) = op := by
  rw [← hf, ← word_eq_encImm]

theorem encImm_of_famOf_nnOf (hf : famOf op = f) (hnn : nnOf op = nn) : encImm f (xOf op) nn = op := by
  rw [← hnn, encImm_of_famOf hf]

theorem encReg_of_famOf (hf : famOf op = f) : encReg f (xOf op) (yOf op) (nOf op) = op := by
  rw [← hf, ← word_eq_encReg]

theorem encReg_of_famOf_nOf (hf : famOf op = f) (hn : nOf op = n) : encReg f (xOf op) (yOf op) n = op := by
  rw [← hn, encReg_of_famOf hf]

/-! ### A word that decodes to an instruction is its word (R73, R74) -/

@[simp] theorem readAmbiguous_eq_instr : readAmbiguous r b i = .instr j ↔ r = .prose ∧ i = j := by
  cases r <;> simp [readAmbiguous]

@[simp] theorem readAmbiguous_eq_unrecognised : readAmbiguous r b i = .unrecognised ↔ r = .table := by
  cases r <;> simp [readAmbiguous]

theorem wf_sys_nnnOf : (Instr.sys (nnnOf op)).wf = true ↔ nnOf op ≠ 0xE0#8 ∧ nnOf op ≠ 0xEE#8 := by
  have hlow : (nnnOf op).extractLsb' 0 8 = nnOf op := by
    rw [nnnOf_split]
    exact BitVec.extractLsb'_append_eq_right
  simp [Instr.wf, sysLowByteTaken, hlow]

/-- What a word decodes to (R73): an instruction whose word it is, the reading of an ambiguous band, or nothing, which
families 8, E and F alone answer. -/
inductive DecodeCase (r : AmbiguousDecode) (op : Word) (d : Decoded) : Prop
  | row (i : Instr) (hd : d = .instr i) (hwf : i.wf = true) (henc : encode i = op)
  | band (b : AmbBand) (i : Instr) (hd : d = readAmbiguous r b i)
  | nothing (hd : d = .unrecognised) (hf : famOf op = 0x8#4 ∨ famOf op = 0xE#4 ∨ famOf op = 0xF#4)

/-- The decoder is a chain of conditionals; a chain's case is that of the arm taken. -/
theorem DecodeCase.ite {c : Prop} [Decidable c] {d' : Decoded} (ht : c → DecodeCase r op d)
    (he : ¬c → DecodeCase r op d') : DecodeCase r op (if c then d else d') := by
  split
  case isTrue h => exact ht h
  case isFalse h => exact he h

theorem decodeFam0_cases (r : AmbiguousDecode) (hf : famOf op = 0x0#4) : DecodeCase r op (decodeFam0 r op) :=
  .ite (fun h => .row _ rfl rfl h.symm) fun _ =>
  .ite (fun h => .row _ rfl rfl h.symm) fun _ =>
  .ite (fun _ => .band _ _ rfl) fun hE0 =>
  .ite (fun _ => .band _ _ rfl) fun hEE =>
  .row _ rfl (wf_sys_nnnOf.mpr ⟨hE0, hEE⟩) (encAddr_of_famOf hf)

theorem decodeFam8_cases (r : AmbiguousDecode) (hf : famOf op = 0x8#4) : DecodeCase r op (decodeFam8 op) := by
  unfold decodeFam8
  iterate 9 refine .ite (fun hn => .row _ rfl rfl (encReg_of_famOf_nOf hf hn)) fun _ => ?_
  exact .nothing rfl (.inl hf)

theorem decodeFamE_cases (r : AmbiguousDecode) (hf : famOf op = 0xE#4) : DecodeCase r op (decodeFamE op) := by
  unfold decodeFamE
  iterate 2 refine .ite (fun hnn => .row _ rfl rfl (encImm_of_famOf_nnOf hf hnn)) fun _ => ?_
  exact .nothing rfl (.inr (.inl hf))

theorem decodeFamF_cases (r : AmbiguousDecode) (hf : famOf op = 0xF#4) : DecodeCase r op (decodeFamF op) := by
  unfold decodeFamF
  iterate 9 refine .ite (fun hnn => .row _ rfl rfl (encImm_of_famOf_nnOf hf hnn)) fun _ => ?_
  exact .nothing rfl (.inr (.inr hf))

/-- One arm per family, in the decoder's order; with the fifteen before it excluded, the last is F (R73). -/
theorem decodeWord_cases (r : AmbiguousDecode) (op : Word) : DecodeCase r op (decodeWord r op) :=
  .ite (decodeFam0_cases r) fun h0 =>
  .ite (fun h => .row _ rfl rfl (encAddr_of_famOf h)) fun h1 =>
  .ite (fun h => .row _ rfl rfl (encAddr_of_famOf h)) fun h2 =>
  .ite (fun h => .row _ rfl rfl (encImm_of_famOf h)) fun h3 =>
  .ite (fun h => .row _ rfl rfl (encImm_of_famOf h)) fun h4 =>
  .ite (fun h => .ite (fun hn => .row _ rfl rfl (encReg_of_famOf_nOf h hn)) fun _ => .band _ _ rfl) fun h5 =>
  .ite (fun h => .row _ rfl rfl (encImm_of_famOf h)) fun h6 =>
  .ite (fun h => .row _ rfl rfl (encImm_of_famOf h)) fun h7 =>
  .ite (decodeFam8_cases r) fun h8 =>
  .ite (fun h => .ite (fun hn => .row _ rfl rfl (encReg_of_famOf_nOf h hn)) fun _ => .band _ _ rfl) fun h9 =>
  .ite (fun h => .row _ rfl rfl (encAddr_of_famOf h)) fun hA =>
  .ite (fun h => .row _ rfl rfl (encAddr_of_famOf h)) fun hB =>
  .ite (fun h => .row _ rfl rfl (encImm_of_famOf h)) fun hC =>
  .ite (fun h => .row _ rfl rfl (encReg_of_famOf h)) fun hD =>
  .ite (decodeFamE_cases r) fun hE =>
  decodeFamF_cases r (by bv_omega)

/-- No bit of a word is dropped, outside the prose reading (R73, R75). -/
theorem encode_of_decodeWord (hr : r ≠ .prose) (h : decodeWord r op = .instr i) : i.wf = true ∧ encode i = op := by
  cases decodeWord_cases r op with
  | row j hd hwf henc =>
    cases h.symm.trans hd
    exact ⟨hwf, henc⟩
  | band b j hd => exact absurd (readAmbiguous_eq_instr.mp (hd.symm.trans h)).1 hr
  | nothing hd => cases h.symm.trans hd

/-- Settles O2: of the cases of `decodeWord_cases` only a row answers an instruction outside the prose reading. -/
theorem encodeOfDecodedWordGivesTheWord : Obligations.EncodeOfDecodedWordGivesTheWord :=
  fun _ _ _ hr h => encode_of_decodeWord hr h

/-! ### A word that a row selects is the word of that row's instruction (R74) -/

theorem encode_and_rowMask : ∀ i : Instr, encode i &&& rowMask i = rowMatch i
  | .cls | .ret => rfl
  | .jp n | .call n | .ldI n | .jpV0 n | .sys n => Laws.RowMatch.encAddr_mask _ n
  | .seImm x nn | .sneImm x nn | .ldImm x nn | .addImm x nn | .rnd x nn => Laws.RowMatch.encImm_mask _ x nn
  | .drw x y n => Laws.RowMatch.encReg_maskFam _ x y n
  | .seReg x y | .sneReg x y | .ldReg x y | .orReg x y | .andReg x y | .xorReg x y
  | .addReg x y | .subReg x y | .shr x y | .subnReg x y | .shl x y => Laws.RowMatch.encReg_mask _ x y _
  | .skp x | .sknp x | .ldVxDt x | .ldVxK x | .ldDtVx x | .ldStVx x
  | .addI x | .ldF x | .ldB x | .storeRegs x | .loadRegs x => Laws.RowMatch.encImm_maskByte _ x _

/-- The instruction of the row of `i` with the operands in the fields of `op` (R71). -/
def withFields (op : Word) : Instr → Instr
  | .cls => .cls
  | .ret => .ret
  | .jp _ => .jp (nnnOf op)
  | .call _ => .call (nnnOf op)
  | .seImm _ _ => .seImm (xOf op) (nnOf op)
  | .sneImm _ _ => .sneImm (xOf op) (nnOf op)
  | .seReg _ _ => .seReg (xOf op) (yOf op)
  | .ldImm _ _ => .ldImm (xOf op) (nnOf op)
  | .addImm _ _ => .addImm (xOf op) (nnOf op)
  | .ldReg _ _ => .ldReg (xOf op) (yOf op)
  | .orReg _ _ => .orReg (xOf op) (yOf op)
  | .andReg _ _ => .andReg (xOf op) (yOf op)
  | .xorReg _ _ => .xorReg (xOf op) (yOf op)
  | .addReg _ _ => .addReg (xOf op) (yOf op)
  | .subReg _ _ => .subReg (xOf op) (yOf op)
  | .shr _ _ => .shr (xOf op) (yOf op)
  | .subnReg _ _ => .subnReg (xOf op) (yOf op)
  | .shl _ _ => .shl (xOf op) (yOf op)
  | .sneReg _ _ => .sneReg (xOf op) (yOf op)
  | .ldI _ => .ldI (nnnOf op)
  | .jpV0 _ => .jpV0 (nnnOf op)
  | .rnd _ _ => .rnd (xOf op) (nnOf op)
  | .drw _ _ _ => .drw (xOf op) (yOf op) (nOf op)
  | .skp _ => .skp (xOf op)
  | .sknp _ => .sknp (xOf op)
  | .ldVxDt _ => .ldVxDt (xOf op)
  | .ldVxK _ => .ldVxK (xOf op)
  | .ldDtVx _ => .ldDtVx (xOf op)
  | .ldStVx _ => .ldStVx (xOf op)
  | .addI _ => .addI (xOf op)
  | .ldF _ => .ldF (xOf op)
  | .ldB _ => .ldB (xOf op)
  | .storeRegs _ => .storeRegs (xOf op)
  | .loadRegs _ => .loadRegs (xOf op)
  | .sys _ => .sys (nnnOf op)

theorem rowMask_withFields (op : Word) (i : Instr) : rowMask (withFields op i) = rowMask i := by
  cases i <;> rfl

theorem rowMatch_withFields (op : Word) (i : Instr) : rowMatch (withFields op i) = rowMatch i := by
  cases i <;> rfl

theorem wf_withFields (op : Word) (hsys : ∀ nnn, i ≠ .sys nnn) : (withFields op i).wf = true := by
  cases i with
  | sys nnn => exact absurd rfl (hsys nnn)
  | _ => rfl

theorem famOf_of_mask (h : op &&& 0xF000#16 = f ++ 0#12) : famOf op = f := by
  rw [word_eq_encAddr op, Laws.RowMatch.encAddr_mask] at h
  simpa using congrArg famOf (show encAddr (famOf op) 0#12 = encAddr f 0#12 from h)

theorem encImm_of_maskByte (h : op &&& 0xF0FF#16 = f ++ (0#4 ++ nn)) : encImm f (xOf op) nn = op := by
  rw [word_eq_encImm op, Laws.RowMatch.encImm_maskByte] at h
  have h' : encImm (famOf op) 0 (nnOf op) = encImm f 0 nn := h
  exact encImm_of_famOf_nnOf (by simpa using congrArg famOf h') (by simpa using congrArg nnOf h')

theorem encReg_of_mask (h : op &&& 0xF00F#16 = f ++ (0#4 ++ (0#4 ++ n))) : encReg f (xOf op) (yOf op) n = op := by
  rw [word_eq_encReg op, Laws.RowMatch.encReg_mask] at h
  have h' : encReg (famOf op) 0 0 (nOf op) = encReg f 0 0 n := h
  exact encReg_of_famOf_nOf (by simpa using congrArg famOf h') (by simpa using congrArg nOf h')

/-- The mask of a row covers all but its operands, so the row's match and the operands of `op` make up `op` (R74). -/
theorem encode_withFields : ∀ {i : Instr}, op &&& rowMask i = rowMatch i → encode (withFields op i) = op
  | .cls, h | .ret, h => ((BitVec.and_allOnes (x := op)).symm.trans h).symm
  | .jp _, h | .call _, h | .ldI _, h | .jpV0 _, h | .sys _, h => encAddr_of_famOf (famOf_of_mask h)
  | .seImm _ _, h | .sneImm _ _, h | .ldImm _ _, h | .addImm _ _, h | .rnd _ _, h =>
    encImm_of_famOf (famOf_of_mask h)
  | .drw _ _ _, h => encReg_of_famOf (famOf_of_mask h)
  | .seReg _ _, h | .sneReg _ _, h | .ldReg _ _, h | .orReg _ _, h | .andReg _ _, h | .xorReg _ _, h
  | .addReg _ _, h | .subReg _ _, h | .shr _ _, h | .subnReg _ _, h | .shl _ _, h => encReg_of_mask h
  | .skp _, h | .sknp _, h | .ldVxDt _, h | .ldVxK _, h | .ldDtVx _, h | .ldStVx _, h
  | .addI _, h | .ldF _, h | .ldB _, h | .storeRegs _, h | .loadRegs _, h => encImm_of_maskByte h

theorem decodeWord_of_rowMask (r : AmbiguousDecode) (hsys : ∀ nnn, i ≠ .sys nnn) (h : op &&& rowMask i = rowMatch i) :
    decodeWord r op = .instr (withFields op i) := by
  have hdec := decodeWord_encode r (wf_withFields op hsys)
  rwa [encode_withFields h] at hdec

/-- Settles O3: a selected word is that of the row's instruction with the word's fields, and an instruction's word is
selected by its row. -/
theorem wordsDecodeToTheirRowOfTheOpcodeMap : Obligations.WordsDecodeToTheirRowOfTheOpcodeMap := by
  refine ⟨fun r op i hsys h => ?_, fun r op j hr h => ?_⟩
  · exact ⟨withFields op i, decodeWord_of_rowMask r hsys h, rowMask_withFields op i, rowMatch_withFields op i⟩
  · obtain ⟨-, henc⟩ := encode_of_decodeWord hr h
    rw [← henc, encode_and_rowMask]

/-! ### The decoder on the families with a choice (R73), and the fields as digits (R11) -/

theorem decodeWord_of_fam0 (hf : famOf op = 0x0#4) : decodeWord r op = decodeFam0 r op := by simp [decodeWord, hf]

theorem decodeWord_of_fam8 (hf : famOf op = 0x8#4) : decodeWord r op = decodeFam8 op := by simp [decodeWord, hf]

theorem decodeWord_of_famE (hf : famOf op = 0xE#4) : decodeWord r op = decodeFamE op := by simp [decodeWord, hf]

theorem decodeWord_of_famF (hf : famOf op = 0xF#4) : decodeWord r op = decodeFamF op := by simp [decodeWord, hf]

theorem famOf_eq_iff : famOf op = f ↔ digit op 3 = f.toNat := by
  rw [← toNat_famOf, BitVec.toNat_inj]

theorem xOf_eq_iff : xOf op = x ↔ digit op 2 = x.val := by
  rw [← val_xOf, Fin.ext_iff]

theorem yOf_eq_iff : yOf op = x ↔ digit op 1 = x.val := by
  rw [← val_yOf, Fin.ext_iff]

theorem nOf_eq_iff : nOf op = n ↔ digit op 0 = n.toNat := by
  rw [← toNat_nOf, BitVec.toNat_inj]

theorem nnOf_eq_iff : nnOf op = nn ↔ lowByte op = nn.toNat := by
  rw [lowByte, ← toNat_nnOf, BitVec.toNat_inj]

theorem nOf_mem_iff {l : List (BitVec 4)} : nOf op ∈ l ↔ digit op 0 ∈ l.map BitVec.toNat := by
  rw [← toNat_nOf, List.mem_map_of_injective BitVec.toNat_injective]

theorem nnOf_mem_iff {l : List Byte} : nnOf op ∈ l ↔ lowByte op ∈ l.map BitVec.toNat := by
  rw [lowByte, ← toNat_nnOf, List.mem_map_of_injective BitVec.toNat_injective]

/-! ### The ambiguous bands (R75) -/

theorem ne_cls_ret_of_xOf (hx : xOf op ≠ 0) : op ≠ 0x00E0#16 ∧ op ≠ 0x00EE#16 := by
  constructor <;> rintro rfl <;> exact hx rfl

theorem decodeWord_amb0_cls (hf : famOf op = 0x0#4) (hx : xOf op ≠ 0) (hnn : nnOf op = 0xE0#8) :
    decodeWord r op = readAmbiguous r .amb0 .cls := by
  obtain ⟨hcls, hret⟩ := ne_cls_ret_of_xOf hx
  rw [decodeWord_of_fam0 hf, decodeFam0, if_neg hcls, if_neg hret, if_pos hnn]

theorem decodeWord_amb0_ret (hf : famOf op = 0x0#4) (hx : xOf op ≠ 0) (hnn : nnOf op = 0xEE#8) :
    decodeWord r op = readAmbiguous r .amb0 .ret := by
  obtain ⟨hcls, hret⟩ := ne_cls_ret_of_xOf hx
  rw [decodeWord_of_fam0 hf, decodeFam0, if_neg hcls, if_neg hret, if_neg (by simp [hnn]), if_pos hnn]

theorem decodeWord_amb5 (hf : famOf op = 0x5#4) (hn : nOf op ≠ 0x0#4) :
    decodeWord r op = readAmbiguous r .amb5 (.seReg (xOf op) (yOf op)) := by
  simp [decodeWord, hf, hn]

theorem decodeWord_amb9 (hf : famOf op = 0x9#4) (hn : nOf op ≠ 0x0#4) :
    decodeWord r op = readAmbiguous r .amb9 (.sneReg (xOf op) (yOf op)) := by
  simp [decodeWord, hf, hn]

/-- The words of the bands by their digits. -/
theorem isAmbiguousWord_iff : isAmbiguousWord op = true ↔
    (digit op 3 = 0 ∧ digit op 2 ≠ 0 ∧ (lowByte op = 0xE0 ∨ lowByte op = 0xEE)) ∨
      ((digit op 3 = 5 ∨ digit op 3 = 9) ∧ digit op 0 ≠ 0) := by
  simp [isAmbiguousWord, famOf_eq_iff, xOf_eq_iff, nOf_eq_iff, nnOf_eq_iff, and_assoc]

/-- What the three readings make of a word of a band (R75). -/
theorem readings_of_band (h : ∀ r, decodeWord r op = readAmbiguous r b i) : decodeWord .refuse op = .ambiguous b ∧
    decodeWord .table op = .unrecognised ∧ decodeWord .prose op = .instr i :=
  ⟨h .refuse, h .table, h .prose⟩

/-- Settles O5: in each band the decoder answers `readAmbiguous`; that no other word is refused is
`isAmbiguousWord_of_decodeWord`. -/
theorem ambiguousBandsReadAsTheParameterSays : Obligations.AmbiguousBandsReadAsTheParameterSays := by
  refine ⟨fun op hf hx hnn => readings_of_band fun r => ?cls, fun op hf hx hnn => readings_of_band fun r => ?ret,
    fun op x y hf hx hy hn => readings_of_band fun r => ?se, fun op x y hf hx hy hn => readings_of_band fun r => ?sne,
    fun op b h => isAmbiguousWord_iff.mp (isAmbiguousWord_of_decodeWord h), rfl⟩
  case cls => exact decodeWord_amb0_cls (famOf_eq_iff.mpr hf) (mt xOf_eq_iff.mp hx) (nnOf_eq_iff.mpr hnn)
  case ret => exact decodeWord_amb0_ret (famOf_eq_iff.mpr hf) (mt xOf_eq_iff.mp hx) (nnOf_eq_iff.mpr hnn)
  case se =>
    rw [decodeWord_amb5 (famOf_eq_iff.mpr hf) (mt nOf_eq_iff.mp hn), xOf_eq_iff.mpr hx, yOf_eq_iff.mpr hy]
  case sne =>
    rw [decodeWord_amb9 (famOf_eq_iff.mpr hf) (mt nOf_eq_iff.mp hn), xOf_eq_iff.mpr hx, yOf_eq_iff.mpr hy]

/-! ### The unrecognised words (R76) -/

theorem decodeFam8_eq_unrecognised :
    decodeFam8 op = .unrecognised ↔ nOf op ∈ [0x8#4, 0x9#4, 0xA#4, 0xB#4, 0xC#4, 0xD#4, 0xF#4] := by
  simp only [decodeFam8, ite_eq_iff, reduceCtorEq, and_false, false_or, and_true]
  generalize nOf op = n
  revert n
  decide

theorem decodeFamE_eq_unrecognised : decodeFamE op = .unrecognised ↔ nnOf op ∉ [0x9E#8, 0xA1#8] := by
  simp [decodeFamE, ite_eq_iff]

theorem decodeFamF_eq_unrecognised : decodeFamF op = .unrecognised ↔
    nnOf op ∉ [0x07#8, 0x0A#8, 0x15#8, 0x18#8, 0x1E#8, 0x29#8, 0x33#8, 0x55#8, 0x65#8] := by
  simp [decodeFamF, ite_eq_iff]

theorem famOf_of_unrecognised (hr : r ≠ .table) (h : decodeWord r op = .unrecognised) :
    famOf op = 0x8#4 ∨ famOf op = 0xE#4 ∨ famOf op = 0xF#4 := by
  cases decodeWord_cases r op with
  | row i hd => cases h.symm.trans hd
  | band b i hd => exact absurd (readAmbiguous_eq_unrecognised.mp (hd.symm.trans h)) hr
  | nothing _ hf => exact hf

theorem decodeWord_eq_unrecognised (hr : r ≠ .table) : decodeWord r op = .unrecognised ↔
    (famOf op = 0x8#4 ∧ decodeFam8 op = .unrecognised) ∨ (famOf op = 0xE#4 ∧ decodeFamE op = .unrecognised) ∨
      (famOf op = 0xF#4 ∧ decodeFamF op = .unrecognised) := by
  constructor
  · intro h
    obtain hf | hf | hf := famOf_of_unrecognised hr h
    · exact .inl ⟨hf, decodeWord_of_fam8 hf ▸ h⟩
    · exact .inr (.inl ⟨hf, decodeWord_of_famE hf ▸ h⟩)
    · exact .inr (.inr ⟨hf, decodeWord_of_famF hf ▸ h⟩)
  · rintro (⟨hf, h⟩ | ⟨hf, h⟩ | ⟨hf, h⟩)
    · exact (decodeWord_of_fam8 hf).trans h
    · exact (decodeWord_of_famE hf).trans h
    · exact (decodeWord_of_famF hf).trans h

theorem decodeWord_eq_sys (r : AmbiguousDecode) (hf : famOf op = 0x0#4) (hnn : nnOf op ∉ [0xE0#8, 0xEE#8]) :
    decodeWord r op = .instr (.sys (nnnOf op)) := by
  have hdec := decodeWord_encode r (wf_sys_nnnOf.mpr (by simpa using hnn))
  rwa [encode, encAddr_of_famOf hf] at hdec

/-- Settles O6: the families that answer `unrecognised` and their low digits, then `SYS` for the rest of family 0. -/
theorem unrecognisedWordsAreExactlyTheseAndDoNothing : Obligations.UnrecognisedWordsAreExactlyTheseAndDoNothing := by
  refine ⟨fun r op hr => ?_, fun r op hf hnn => ⟨nnnOf op, ?_⟩, fun _ => rfl, fun _ _ => rfl⟩
  · rw [decodeWord_eq_unrecognised hr, decodeFam8_eq_unrecognised, decodeFamE_eq_unrecognised,
      decodeFamF_eq_unrecognised, nOf_mem_iff, nnOf_mem_iff, nnOf_mem_iff, famOf_eq_iff, famOf_eq_iff, famOf_eq_iff]
    rfl
  · exact decodeWord_eq_sys r (famOf_eq_iff.mpr hf) (mt nnOf_mem_iff.mp hnn)

end Sys2Proof.Proofs
end

section
/-! The instruction cycle (spec R90-R95, R190, R198): what a running core's step executes, that a halted core only passes
boundaries, that every step is answered with a state, and which instruction raises which fault. -/

namespace Sys2Proof.Proofs
open Sys2Proof.Machine Sys2Proof.Claims

/-! ### A running core fetches and advances (R90-R92, R94) -/

section
variable {s : State} (r : AmbiguousDecode)

/-- A running core executes the word at PC, after the boundary and the advance. -/
theorem stepWith_of_fetch (hrun : s.status = .running) (hpc : s.pc.toNat + 1 < 4096) :
    stepWith r s = execDecoded (decodeWord r (wordAtPc s)) (s.boundary.advance (wordAtPc s)) := by
  obtain ⟨hhalt, -⟩ | ⟨-, hge, -⟩ | ⟨-, -, op, rfl, hstep⟩ := stepWith_cases r s
  · exact absurd hrun hhalt
  · exact absurd hpc (Nat.not_lt.mpr hge)
  · exact hstep

/-- A running core whose fetch reaches past memory takes the fetch fault, after the boundary (R91). -/
theorem stepWith_of_fetchFault (hrun : s.status = .running) (hpc : 4096 ≤ s.pc.toNat + 1) :
    stepWith r s = .next s.boundary.raiseFetch := by
  obtain ⟨hhalt, -⟩ | ⟨-, -, hstep⟩ | ⟨-, hlt, -⟩ := stepWith_cases r s
  · exact absurd hrun hhalt
  · exact hstep
  · exact absurd hlt (Nat.not_lt.mpr hpc)

/-- A step of a halted core is the boundary alone (R95, R177). -/
theorem stepWith_of_halted (hhalt : s.status ≠ .running) : stepWith r s = .next s.boundary :=
  stepRequest_of_halted r hhalt

end

/-- An address whose two bytes lie in memory advances without wrapping (R92). -/
theorem toNat_pc_advance {s : State} (hpc : s.pc.toNat + 1 < 4096) (op : Word) :
    (s.advance op).pc.toNat = s.pc.toNat + 2 := by
  rw [State.advance_pc, toNat_trunc16]
  omega

/-- Settles O9: the step is `stepWith_of_fetch`, and what it executes is the decoded instruction. -/
theorem stepRunsTheDecodedInstruction : Obligations.StepRunsTheDecodedInstruction := by
  refine ⟨fun _ => rfl, fun r s i hrun hpc hdec =>
    ⟨s.boundary.advance (wordAtPc s), rfl, toNat_pc_advance (s := s.boundary) hpc _, ?_⟩⟩
  rw [stepWith_of_fetch r hrun hpc, hdec]
  rfl

/-- Settles O10: the step is `stepWith_of_fetch`, and what it executes is the no-op. -/
theorem unrecognisedWordStepOnlyAdvances : Obligations.UnrecognisedWordStepOnlyAdvances := by
  refine fun r s hrun hpc hdec =>
    ⟨s.boundary.advance (wordAtPc s), ?_, rfl, toNat_pc_advance (s := s.boundary) hpc _⟩
  rw [stepWith_of_fetch r hrun hpc, hdec]
  rfl

/-- Settles O11: `stepWith_of_fetchFault` from 0xFFF up, and the fetch inside memory at 0xFFE. -/
theorem fetchFaultsFrom0xFFF : Obligations.FetchFaultsFrom0xFFF := by
  refine ⟨fun r s hrun hpc => stepWith_of_fetchFault r hrun (by omega), fun s hpc => ?_⟩
  have hfetch := State.fetch_of_lt (s := s) (by rw [hpc]; decide)
  rwa [hpc] at hfetch

/-! ### A halted core passes boundaries and nothing else (R95, R177) -/

theorem boundaries_boundary (k : Nat) (s : State) : boundaries k s.boundary = boundaries (k + 1) s := by
  induction k with
  | zero => rfl
  | succ k ih => exact congrArg State.boundary ih

/-- Boundaries write the timers and the model's own input fields and counters only. -/
theorem boundaries_frame (k : Nat) (s : State) :
    boundaries k s = { s with
      dt := (boundaries k s).dt, st := (boundaries k s).st, keys := (boundaries k s).keys,
      rnd := (boundaries k s).rnd, now := (boundaries k s).now, dtGap := (boundaries k s).dtGap,
      stGap := (boundaries k s).stGap } := by
  induction k with
  | zero => rfl
  | succ k ih => exact (congrArg State.boundary ih).trans rfl

/-- A timer that each boundary counts down or keeps loses at most `k` over `k` boundaries, and never rises. -/
theorem boundaries_timer_bounds (timer : State → Byte)
    (htimer : ∀ s, ∃ reached, timer s.boundary = countDown (timer s) reached) (k : Nat) (s : State) :
    (timer s).toNat - k ≤ (timer (boundaries k s)).toNat ∧ (timer (boundaries k s)).toNat ≤ (timer s).toNat := by
  induction k with
  | zero => exact ⟨le_rfl, le_rfl⟩
  | succ k ih =>
    obtain ⟨reached, hnext⟩ := htimer (boundaries k s)
    rw [boundaries, hnext, toNat_countDown]
    split <;> omega

/-- A run of one step more, when the first step is answered with a state. -/
theorem core_run_succ (M : Host.Core) {s t : M.State} (k : Nat) (h : M.step s = .next t) :
    M.run (k + 1) s = M.run k t := by
  rw [Host.Core.run, h]

/-- `k` steps of a halted core are `k` boundaries, each of which leaves it halted. -/
theorem core_run_of_halted (k : Nat) : ∀ {s : State}, s.status ≠ .running →
    Host.Core.run core k s = .next (boundaries k s) := by
  induction k with
  | zero => exact fun _ => rfl
  | succ k ih =>
    intro s hhalt
    rw [← boundaries_boundary]
    exact (core_run_succ core k (stepWith_of_halted _ hhalt)).trans (ih hhalt)

/-- Settles O13: the run is `core_run_of_halted`; what boundaries change, `boundaries_frame` and the timers' bounds. -/
theorem haltedCoreIgnoresEveryStep : Obligations.HaltedCoreIgnoresEveryStep := by
  intro s hhalt
  refine ⟨fun r => ⟨stepRequest_of_halted r hhalt, stepWith_of_halted r hhalt⟩, fun k => ?_⟩
  obtain ⟨hdtLo, hdtHi⟩ := boundaries_timer_bounds State.dt (fun _ => ⟨_, rfl⟩) k s
  obtain ⟨hstLo, hstHi⟩ := boundaries_timer_bounds State.st (fun _ => ⟨_, rfl⟩) k s
  exact ⟨_, core_run_of_halted k hhalt, rfl, boundaries_frame k s, hdtLo, hdtHi, hstLo, hstHi⟩

/-! ### Every step is answered with a state (R93, R198) -/

/-- Every instruction answers a next state: a fault is one of them (R198). -/
theorem exec_answers_next (i : Instr) (s : State) : ∃ t, exec i s = .next t := by
  cases i <;> exact ⟨_, rfl⟩

theorem execDecoded_answers_next (s : State) : ∀ d : Decoded, ∃ t, execDecoded d s = .next t
  | .instr i => exec_answers_next i s
  | .unrecognised => ⟨s, rfl⟩
  | .ambiguous _ => ⟨s.refuseWord, rfl⟩

/-- Settles O14: each of the three things a step can do (`stepWith_cases`) answers a state. -/
theorem everyStepAnswersANextState : Obligations.EveryStepAnswersANextState := by
  intro r s
  obtain ⟨-, hstep⟩ | ⟨-, -, hstep⟩ | ⟨-, -, op, -, hstep⟩ := stepWith_cases r s
  · exact ⟨_, hstep⟩
  · exact ⟨_, hstep⟩
  · rw [hstep]
    exact execDecoded_answers_next _ _

/-! ### Who raises which fault (R190-R194) -/

/-- The faults that each instruction raises, and when. -/
inductive FaultCause (s : State) : Instr → Fault → Prop
  | call (nnn : Addr12) (h : s.sp.val = 16) : FaultCause s (.call nnn) .stackOverflow
  | ret (h : s.sp.val = 0) : FaultCause s .ret .stackUnderflow
  | key {i : Instr} (x : Reg) (hi : i = .skp x ∨ i = .sknp x) (h : 0x0F < (s.getV x).toNat) :
      FaultCause s i .keyIndexOutOfRange
  | drw (x y : Reg) (n : BitVec 4) (hn : 0 < n.toNat) (h : 4096 ≤ s.i.toNat + n.toNat - 1) :
      FaultCause s (.drw x y n) .memoryOutOfRange
  | ldB (x : Reg) (h : 4096 ≤ s.i.toNat + 2) : FaultCause s (.ldB x) .memoryOutOfRange
  | block {i : Instr} (x : Reg) (hi : i = .storeRegs x ∨ i = .loadRegs x) (h : 4096 ≤ s.i.toNat + x.val) :
      FaultCause s i .memoryOutOfRange

/-- What an instruction does to the status: nothing, or it raises a fault whose condition holds, and does nothing else. -/
def StatusEffect (s : State) (i : Instr) (t : State) : Prop :=
  t.status = s.status ∨ ∃ k, FaultCause s i k ∧ t = s.raise k

section
variable {s t : State}

theorem statusEffect_ret (h : execRet s = .next t) : StatusEffect s .ret t := by
  cases h
  by_cases h0 : s.sp.val = 0
  · simp only [State.pop_of_empty h0]
    exact .inr ⟨_, .ret h0, rfl⟩
  · simp only [State.pop_of_pos h0]
    exact .inl rfl

theorem statusEffect_call {nnn : Addr12} (h : execCall nnn s = .next t) : StatusEffect s (.call nnn) t := by
  cases h
  by_cases hsp : s.sp.val < 16
  · simp only [State.push_of_lt s.pc hsp]
    exact .inl rfl
  · have hfull : s.sp.val = 16 := by omega
    simp only [State.push_of_full s.pc hfull]
    exact .inr ⟨_, .call nnn hfull, rfl⟩

theorem statusEffect_keySkip {i : Instr} {x : Reg} (hi : i = .skp x ∨ i = .sknp x) (c : Bool) :
    StatusEffect s i (if isKeyIndex (s.getV x) then s.skipIf c else s.raise .keyIndexOutOfRange) := by
  split
  · exact .inl (s.skipIf_status c)
  · next h => exact .inr ⟨_, .key x hi (by simpa [isKeyIndex] using h), rfl⟩

theorem statusEffect_drw {x y : Reg} {n : BitVec 4} (h : execDrw x y n s = .next t) :
    StatusEffect s (.drw x y n) t := by
  cases h
  split
  · obtain ⟨v, fb, hframe⟩ := (s.setV vf 0x00#8).drawSprite_frame s.i.toNat (originColumn (s.getV x))
      (originRow (s.getV y)) n.toNat
    exact .inl ((congrArg State.status hframe).trans rfl)
  · next hout =>
    rw [State.spriteInRange_iff] at hout
    exact .inr ⟨_, .drw x y n (by omega) (by omega), rfl⟩

theorem statusEffect_ldVxK {x : Reg} (h : execLdVxK x s = .next t) : StatusEffect s (.ldVxK x) t := by
  cases h
  split <;> exact .inl rfl

theorem statusEffect_ldB {x : Reg} (h : execLdB x s = .next t) : StatusEffect s (.ldB x) t := by
  cases h
  split
  · next hout => exact .inr ⟨_, .ldB x hout, rfl⟩
  · exact .inl ((congrArg State.status (s.storeBcd_frame _)).trans rfl)

theorem statusEffect_storeRegs {x : Reg} (h : execStoreRegs x s = .next t) : StatusEffect s (.storeRegs x) t := by
  cases h
  split
  · next hout => exact .inr ⟨_, .block x (.inl rfl) hout, rfl⟩
  · exact .inl ((congrArg State.status (s.storeBlock_frame _)).trans rfl)

theorem statusEffect_loadRegs {x : Reg} (h : execLoadRegs x s = .next t) : StatusEffect s (.loadRegs x) t := by
  cases h
  split
  · next hout => exact .inr ⟨_, .block x (.inr rfl) hout, rfl⟩
  · exact .inl ((congrArg State.status (s.loadBlock_frame _)).trans rfl)

/-- Every instruction leaves the status alone, or raises a fault of its own and writes nothing else. -/
theorem statusEffect_of_exec : ∀ {i : Instr}, exec i s = .next t → StatusEffect s i t
  | .ret, h => statusEffect_ret h
  | .call _, h => statusEffect_call h
  | .skp _, rfl => statusEffect_keySkip (.inl rfl) _
  | .sknp _, rfl => statusEffect_keySkip (.inr rfl) _
  | .drw _ _ _, h => statusEffect_drw h
  | .ldVxK _, h => statusEffect_ldVxK h
  | .ldB _, h => statusEffect_ldB h
  | .storeRegs _, h => statusEffect_storeRegs h
  | .loadRegs _, h => statusEffect_loadRegs h
  | .seImm _ _, rfl | .sneImm _ _, rfl | .seReg _ _, rfl | .sneReg _ _, rfl => .inl (s.skipIf_status _)
  | .cls, rfl | .jp _, rfl | .jpV0 _, rfl | .sys _, rfl | .ldI _, rfl | .addI _, rfl | .ldF _, rfl
  | .ldImm _ _, rfl | .addImm _ _, rfl | .rnd _ _, rfl | .ldReg _ _, rfl
  | .orReg _ _, rfl | .andReg _ _, rfl | .xorReg _ _, rfl | .addReg _ _, rfl
  | .subReg _ _, rfl | .subnReg _ _, rfl | .shr _ _, rfl | .shl _ _, rfl
  | .ldVxDt _, rfl | .ldDtVx _, rfl | .ldStVx _, rfl => .inl rfl

end

/-- Settles O17: a running core's faulted successor is a raised fault (`statusEffect_of_exec`), and each kind has the
causes that `FaultCause` lists. -/
theorem faultsArePreciseAndRaisedByTheirInstructions : Obligations.FaultsArePreciseAndRaisedByTheirInstructions := by
  intro i s t k addr op hrun hexec hfault
  obtain hkept | ⟨k', hcause, rfl⟩ := statusEffect_of_exec hexec
  · rw [hkept, hrun] at hfault
    cases hfault
  · cases hfault
    refine ⟨rfl, ?overflow, ?underflow, ?keyIndex, ?memory⟩ <;> rintro rfl
    case overflow =>
      cases hcause with
      | call nnn h => exact ⟨h, nnn, rfl⟩
    case underflow =>
      cases hcause with
      | ret h => exact ⟨h, rfl⟩
    case keyIndex =>
      cases hcause with
      | key x hi h => exact ⟨x, h, hi⟩
    case memory =>
      cases hcause with
      | drw x y n hn h => exact .inl ⟨x, y, n, rfl, hn, h⟩
      | ldB x h => exact .inr (.inl ⟨x, rfl, h⟩)
      | block x hi h => exact .inr (.inr ⟨x, hi, h⟩)

end Sys2Proof.Proofs
end

section
/-! Control flow (spec R100-R110): what RET, CALL, the jumps and the skips answer, and the return from a call. -/

namespace Sys2Proof.Proofs
open Sys2Proof.Machine Sys2Proof.Claims

section
variable {s : State}

/-! ### RET and CALL (R102, R104): one equation per branch -/

/-- With no frame held RET faults, its only write the status (R192). -/
theorem exec_ret_of_empty (h : s.sp.val = 0) : exec .ret s = .next (faultState .stackUnderflow s) := by
  change execRet s = _
  rw [execRet, State.pop_of_empty h]
  rfl

theorem exec_ret_of_succ {k : Fin 16} (h : s.sp.val = k.val + 1) :
    exec .ret s = .next { s with sp := k.castSucc, pc := s.stack[k] } := by
  have hsp : s.sp = k.succ := Fin.ext h
  change execRet s = _
  rw [execRet, State.pop_of_pos (by omega)]
  simp only [hsp]
  rfl

/-- With 16 frames held CALL faults, its only write the status (R191). -/
theorem exec_call_of_full (nnn : Addr12) (h : s.sp.val = 16) :
    exec (.call nnn) s = .next (faultState .stackOverflow s) := by
  change execCall nnn s = _
  rw [execCall, State.push_of_full s.pc h]
  rfl

theorem exec_call_of_lt (nnn : Addr12) {k : Fin 16} (h : s.sp.val = k.val) :
    exec (.call nnn) s =
      .next { s with sp := k.succ, stack := s.stack.set k s.pc, pc := addrOperand nnn } := by
  have hsp : s.sp = k.castSucc := Fin.ext h
  change execCall nnn s = _
  rw [execCall, State.push_of_lt s.pc (by omega)]
  simp only [hsp]
  rfl

theorem toNat_addrOperand (nnn : Addr12) : (addrOperand nnn).toNat = nnn.toNat :=
  BitVec.toNat_setWidth_of_le (by decide)

/-- R109: the sum is at most 0x10FE, so the truncation never applies. -/
theorem toNat_v0Target (s : State) (nnn : Addr12) : (s.v0Target nnn).toNat = nnn.toNat + (s.getV 0).toNat := by
  rw [State.v0Target, toNat_trunc16, Nat.mod_eq_of_lt]
  omega

/-! ### The skips (R100) -/

theorem onlyPc_skipIf (s : State) (c : Bool) : OnlyPc s (s.skipIf c) := by cases c <;> rfl

theorem toNat_pc_skipIf (s : State) (c : Bool) :
    (s.skipIf c).pc.toNat = if c then (s.pc.toNat + 2) % 65536 else s.pc.toNat := by
  rw [State.skipIf_pc, apply_ite BitVec.toNat, toNat_trunc16]

/-- A skip on equality, the comparison read as numbers (R105, R107). -/
theorem toNat_pc_skipIf_beq (s : State) (a b : Byte) : (s.skipIf (a == b)).pc.toNat =
    if a.toNat = b.toNat then (s.pc.toNat + 2) % 65536 else s.pc.toNat := by
  simp only [toNat_pc_skipIf, beq_iff_eq, BitVec.toNat_inj]

/-- A skip on inequality, the comparison read as numbers (R106, R108). -/
theorem toNat_pc_skipIf_bne (s : State) (a b : Byte) : (s.skipIf (a != b)).pc.toNat =
    if a.toNat = b.toNat then s.pc.toNat else (s.pc.toNat + 2) % 65536 := by
  simp only [toNat_pc_skipIf, bne_iff_ne, ne_eq, ite_not, BitVec.toNat_inj]

end

/-- Settles O18: one equation of RET per clause. -/
theorem returnPopsPcOrUnderflows : Obligations.ReturnPopsPcOrUnderflows := fun _ =>
  ⟨exec_ret_of_empty, fun _ h => ⟨_, exec_ret_of_succ h, rfl, rfl, rfl⟩⟩

/-- Settles O19: one equation of CALL per clause; the slots are those of a vector after one write. -/
theorem callPushesPcOrOverflows : Obligations.CallPushesPcOrOverflows := by
  refine fun nnn s => ⟨exec_call_of_full nnn, fun k h =>
    ⟨_, exec_call_of_lt nnn h, rfl, ?pushed, fun j hj => ?kept, toNat_addrOperand nnn, rfl⟩⟩
  case pushed => exact Vector.getElem_set_self _
  case kept => exact Vector.getElem_set_ne k.isLt j.isLt fun e => hj (Fin.ext e.symm)

/-- Settles O21: each skip is `skipIf` of its comparison. -/
theorem skipsAdvancePcOnTheirCondition : Obligations.SkipsAdvancePcOnTheirCondition := fun x y nn s =>
  ⟨⟨_, rfl, onlyPc_skipIf s _, toNat_pc_skipIf_beq s (s.getV x) nn⟩,
    ⟨_, rfl, onlyPc_skipIf s _, toNat_pc_skipIf_bne s (s.getV x) nn⟩,
    ⟨_, rfl, onlyPc_skipIf s _, toNat_pc_skipIf_beq s (s.getV x) (s.getV y)⟩,
    ⟨_, rfl, onlyPc_skipIf s _, toNat_pc_skipIf_bne s (s.getV x) (s.getV y)⟩⟩

/-- Settles O22: RET pops the slot that CALL pushed, the stack pointer and the stack being those that CALL left. -/
theorem returnAfterCallResumesAfterTheCall : Obligations.ReturnAfterCallResumesAfterTheCall := by
  intro nnn s t u hlt hcall hsp hstack
  obtain ⟨k, hk⟩ : ∃ k : Fin 16, s.sp = k.castSucc := ⟨s.sp.castLT hlt, rfl⟩
  rw [exec_call_of_lt nnn (congrArg Fin.val hk)] at hcall
  cases hcall
  refine ⟨_, exec_ret_of_succ (congrArg Fin.val hsp), ?pc, hk.symm⟩
  case pc =>
    calc u.stack[k] = (s.stack.set k s.pc)[k] := by rw [hstack]
      _ = s.pc := Vector.getElem_set_self _

/-- Settles O20: each jump is one write of PC. -/
theorem jumpsSetPcOnly : Obligations.JumpsSetPcOnly := fun nnn s =>
  ⟨⟨_, rfl, rfl, toNat_addrOperand nnn⟩, ⟨_, rfl, rfl, toNat_v0Target s nnn⟩⟩

end Sys2Proof.Proofs
end

section
/-! Register and ALU operations (spec R120-R132): the rules of the two shapes of write, a result alone and a flag with a
result after it (R15), and what each operation leaves. -/

namespace Sys2Proof.Proofs
open Sys2Proof.Machine Sys2Proof.Claims

/-! ### A result alone -/

theorem onlyV_setV (s : State) (x : Reg) (b : Byte) : OnlyV s (s.setV x b) := rfl

theorem keepsAllBut_setV (s : State) (x : Reg) (b : Byte) : KeepsAllBut x s (s.setV x b) := fun _ =>
  State.getV_setV_ne s b

/-! ### A flag, then a result (R15) -/

section
variable {s : State} {x : Reg} {f b : Byte}

theorem onlyV_setV_setV : OnlyV s ((s.setV vf f).setV x b) := rfl

theorem keepsAllButVf_setV_setV : KeepsAllButVf x s ((s.setV vf f).setV x b) := by
  intro k hkx hkf
  rw [State.getV_setV_ne _ _ hkx, State.getV_setV_ne _ _ hkf]

/-- The flag stands where the result goes to another register. -/
theorem getV_vf_setV_setV (hx : x ≠ vf) : ((s.setV vf f).setV x b).getV vf = f := by
  rw [State.getV_setV_ne _ _ hx.symm, State.getV_setV_same]

end

/-! ### The differences (R128, R130): SUB and SUBN take their operands in opposite orders -/

theorem toNat_noBorrowFlag_eq_gtFlag (a b : Byte) : (noBorrowFlag a b).toNat = gtFlag a b := toNat_noBorrowFlag a b

/-- The flag of `V[a] - V[b]` in VF, then the difference in V[x], its operands read after the flag is written. -/
def writeDifference (s : State) (x a b : Reg) : State :=
  let s1 := s.setV vf (noBorrowFlag (s.getV a) (s.getV b))
  s1.setV x (sub8 (s1.getV a) (s1.getV b))

section
variable {s : State} {x a b : Reg}

theorem exec_subReg (x y : Reg) (s : State) : exec (.subReg x y) s = .next (writeDifference s x x y) := rfl

theorem exec_subnReg (x y : Reg) (s : State) : exec (.subnReg x y) s = .next (writeDifference s x y x) := rfl

theorem onlyV_writeDifference : OnlyV s (writeDifference s x a b) := onlyV_setV_setV

theorem keepsAllButVf_writeDifference : KeepsAllButVf x s (writeDifference s x a b) := keepsAllButVf_setV_setV

theorem toNat_vf_writeDifference (hx : x ≠ vf) :
    ((writeDifference s x a b).getV vf).toNat = gtFlag (s.getV a) (s.getV b) := by
  rw [writeDifference, getV_vf_setV_setV hx, toNat_noBorrowFlag_eq_gtFlag]

theorem getV_writeDifference : (writeDifference s x a b).getV x =
    sub8 ((s.setV vf (noBorrowFlag (s.getV a) (s.getV b))).getV a)
      ((s.setV vf (noBorrowFlag (s.getV a) (s.getV b))).getV b) :=
  State.getV_setV_same _ _ _

/-- Neither operand is VF: the difference of the old values. -/
theorem toNat_writeDifference (ha : a ≠ vf) (hb : b ≠ vf) : ((writeDifference s x a b).getV x).toNat =
    ((s.getV a).toNat + 256 - (s.getV b).toNat) % 256 := by
  rw [getV_writeDifference, toNat_sub8, State.getV_setV_ne _ _ ha, State.getV_setV_ne _ _ hb]

/-- The subtrahend is VF: the new flag is subtracted. -/
theorem toNat_writeDifference_of_subtrahend (ha : a ≠ vf) (hb : b = vf) : ((writeDifference s x a b).getV x).toNat =
    ((s.getV a).toNat + 256 - gtFlag (s.getV a) (s.getV b)) % 256 := by
  subst hb
  rw [getV_writeDifference, toNat_sub8, State.getV_setV_ne _ _ ha, State.getV_setV_same, toNat_noBorrowFlag_eq_gtFlag]

/-- The minuend is VF: the new flag is subtracted from. -/
theorem toNat_writeDifference_of_minuend (ha : a = vf) (hb : b ≠ vf) : ((writeDifference s x a b).getV x).toNat =
    (gtFlag (s.getV a) (s.getV b) + 256 - (s.getV b).toNat) % 256 := by
  subst ha
  rw [getV_writeDifference, toNat_sub8, State.getV_setV_same, State.getV_setV_ne _ _ hb, toNat_noBorrowFlag_eq_gtFlag]

theorem getV_writeDifference_self : (writeDifference s x a a).getV x = 0x00#8 := by
  rw [getV_writeDifference, sub8_self]

end

/-- Settles O26: the laws of `writeDifference`, the minuend being V[x]. -/
theorem subWritesNoBorrowThenDifference : Obligations.SubWritesNoBorrowThenDifference := by
  refine fun x y s => ⟨_, exec_subReg x y s, onlyV_writeDifference, keepsAllButVf_writeDifference,
    toNat_vf_writeDifference, toNat_writeDifference, toNat_writeDifference_of_subtrahend, ?minuend, ?both⟩
  case minuend =>
    rintro rfl hy
    exact toNat_writeDifference_of_minuend rfl hy
  case both =>
    rintro rfl rfl
    exact getV_writeDifference_self

/-- Settles O27: the laws of `writeDifference`, the minuend being V[y]. -/
theorem subnWritesNoBorrowThenDifference : Obligations.SubnWritesNoBorrowThenDifference := by
  refine fun x y s => ⟨_, exec_subnReg x y s, onlyV_writeDifference, keepsAllButVf_writeDifference,
    toNat_vf_writeDifference, fun hx hy => toNat_writeDifference hy hx,
    fun hx hy => toNat_writeDifference_of_minuend hy hx, ?subtrahend, ?both⟩
  case subtrahend =>
    rintro rfl hy
    exact toNat_writeDifference_of_subtrahend hy rfl
  case both =>
    rintro rfl rfl
    exact getV_writeDifference_self

/-! ### The sum (R127) -/

theorem toNat_trunc8_exactSum (a b : Byte) : (trunc8 (exactSum a b)).toNat = (a.toNat + b.toNat) % 256 :=
  toNat_trunc8 _

/-- Settles O25: the sum is taken of the values before the flag is written. -/
theorem addWritesSumAndCarry : Obligations.AddWritesSumAndCarry := by
  refine fun x y s => ⟨_, rfl, onlyV_setV_setV, keepsAllButVf_setV_setV, ?sum, fun hx => ?carry⟩
  case sum => rw [State.getV_setV_same, toNat_trunc8_exactSum]
  case carry =>
    rw [getV_vf_setV_setV hx, toNat_carryFlag]
    rfl

/-! ### The shifts (R129, R131) -/

/-- SHR of VF: the bit moved out is bit 0, which the shift of the flag moves out again. -/
theorem shr8_shrFlag (a : Byte) : shr8 (shrFlag a) = 0x00#8 := by
  apply BitVec.eq_of_toNat_eq
  rw [toNat_shr8, toNat_shrFlag]
  exact Nat.div_eq_of_lt (Nat.mod_lt _ (by decide))

/-- SHL of VF: the old bit 7 ends in bit 1. -/
theorem toNat_shl8_shlFlag (a : Byte) : (shl8 (shlFlag a)).toNat = if 128 ≤ a.toNat then 2 else 0 := by
  have ha : a.toNat < 256 := a.isLt
  rw [toNat_shl8, toNat_shlFlag]
  split_ifs <;> omega

/-- A shift of a register other than VF reads the value from before the flag. -/
theorem getV_shifted (s : State) (f : Byte) (g : Byte → Byte) {x : Reg} (hx : x ≠ vf) :
    ((s.setV vf f).setV x (g ((s.setV vf f).getV x))).getV x = g (s.getV x) := by
  rw [State.getV_setV_same, State.getV_setV_ne _ _ hx]

/-- A shift of VF reads the flag just written. -/
theorem getV_shifted_vf (s : State) (f : Byte) (g : Byte → Byte) :
    ((s.setV vf f).setV vf (g ((s.setV vf f).getV vf))).getV vf = g f := by
  rw [State.getV_setV_same, State.getV_setV_same]

/-- Settles O28: V[x] by `getV_shifted` or, for x = F, `getV_shifted_vf`; then each result and flag as a number. -/
theorem shiftsMoveOneBitIntoVf : Obligations.ShiftsMoveOneBitIntoVf := by
  refine fun x y s =>
    ⟨⟨_, rfl, onlyV_setV_setV, keepsAllButVf_setV_setV, fun hx => ⟨?shrBit, ?shrResult⟩, ?shrVf⟩,
      ⟨_, rfl, onlyV_setV_setV, keepsAllButVf_setV_setV, fun hx => ⟨?shlBit, ?shlResult⟩, ?shlVf⟩⟩
  case shrBit => rw [getV_vf_setV_setV hx, toNat_shrFlag]
  case shrResult => rw [getV_shifted _ _ _ hx, toNat_shr8]
  case shrVf =>
    rintro rfl
    rw [getV_shifted_vf, shr8_shrFlag]
  case shlBit => rw [getV_vf_setV_setV hx, toNat_shlFlag]
  case shlResult => rw [getV_shifted _ _ _ hx, toNat_shl8]
  case shlVf =>
    rintro rfl
    rw [getV_shifted_vf, toNat_shl8_shlFlag]

/-! ### Loads, the immediate sum, the logical operations and the random byte (R121-R126, R132) -/

/-- Settles O23: each is one write of V[x]. -/
theorem loadsAndImmediateAddWriteVxOnly : Obligations.LoadsAndImmediateAddWriteVxOnly := by
  refine fun x y nn s => ⟨⟨_, rfl, onlyV_setV s x _, keepsAllBut_setV s x _, ?imm⟩,
    ⟨_, rfl, onlyV_setV s x _, keepsAllBut_setV s x _, ?sum⟩,
    ⟨_, rfl, onlyV_setV s x _, keepsAllBut_setV s x _, ?reg⟩⟩
  case imm | reg => rw [State.getV_setV_same]
  case sum => rw [State.getV_setV_same, toNat_trunc8_exactSum]

/-- Settles O24: each is one write of V[x], of a byte known bit by bit. -/
theorem logicalOperationsActBitwiseWithoutFlag : Obligations.LogicalOperationsActBitwiseWithoutFlag := by
  refine fun x y s => ⟨⟨_, rfl, onlyV_setV s x _, keepsAllBut_setV s x _, fun b _ => ?or⟩,
    ⟨_, rfl, onlyV_setV s x _, keepsAllBut_setV s x _, fun b _ => ?and⟩,
    ⟨_, rfl, onlyV_setV s x _, keepsAllBut_setV s x _, fun b _ => ?xor⟩⟩
  case or => rw [State.getV_setV_same, BitVec.getLsbD_or]
  case and => rw [State.getV_setV_same, BitVec.getLsbD_and]
  case xor => rw [State.getV_setV_same, BitVec.getLsbD_xor]

/-- Settles O29: one write of V[x], of the drawn byte masked bit by bit. -/
theorem randomIsTheDrawnByteMasked : Obligations.RandomIsTheDrawnByteMasked := fun x nn b s =>
  ⟨_, rfl, onlyV_setV _ x _, keepsAllBut_setV { s with rnd := b } x _, fun k _ => by
    rw [State.getV_setV_same, BitVec.getLsbD_and]⟩

end Sys2Proof.Proofs
end

section
/-! The index register and the memory transfers (spec R140-R145): what each answers, inside memory and at its fault, and
the block load that undoes a block store. -/

namespace Sys2Proof.Proofs
open Sys2Proof.Machine Sys2Proof.Claims

/-! ### The index register (R140-R142) -/

theorem onlyI_setI (s : State) (w : Word) : OnlyI s (s.setI w) := rfl

theorem toNat_indexSum (s : State) (x : Reg) : (s.indexSum x).toNat = (s.i.toNat + (s.getV x).toNat) % 65536 :=
  toNat_trunc16 _

/-- R142: the glyph address is at most 0x54B, so the truncation never applies. -/
theorem toNat_glyphAddr (b : Byte) : (glyphAddr b).toNat = 0x050 + 5 * b.toNat := by
  have hb : b.toNat < 256 := b.isLt
  have hbase : fontBase = 0x050 := rfl
  rw [glyphAddr, toNat_trunc16, hbase, Nat.mod_eq_of_lt (by omega)]

/-- Settles O30: each is one write of I, of an address known as a number. -/
theorem indexInstructionsWriteIOnly : Obligations.IndexInstructionsWriteIOnly := fun x nnn s =>
  ⟨⟨_, rfl, onlyI_setI s _, toNat_addrOperand nnn⟩, ⟨_, rfl, onlyI_setI s _, toNat_indexSum s x⟩,
    ⟨_, rfl, onlyI_setI s _, toNat_glyphAddr (s.getV x)⟩⟩

section
variable {s : State} {x : Reg}

/-! ### The transfers outside memory (R193): the fault, its only write the status -/

theorem exec_ldB_of_ge (h : 4096 ≤ s.i.toNat + 2) : exec (.ldB x) s = .next (faultState .memoryOutOfRange s) :=
  congrArg _ (if_pos h)

theorem exec_storeRegs_of_ge (h : 4096 ≤ s.i.toNat + x.val) :
    exec (.storeRegs x) s = .next (faultState .memoryOutOfRange s) :=
  congrArg _ (if_pos h)

theorem exec_loadRegs_of_ge (h : 4096 ≤ s.i.toNat + x.val) :
    exec (.loadRegs x) s = .next (faultState .memoryOutOfRange s) :=
  congrArg _ (if_pos h)

/-! ### The transfers inside memory -/

/-- `LD Vx, [I]` inside memory is the block load (R145). -/
theorem exec_loadRegs_of_lt (h : s.i.toNat + x.val < 4096) :
    exec (.loadRegs x) s = .next (s.loadBlock (x.val + 1)) :=
  congrArg _ (if_neg (Nat.not_le.mpr h))

theorem onlyV_loadBlock (s : State) (n : Nat) : OnlyV s (s.loadBlock n) := s.loadBlock_frame n

/-- The byte that a block store leaves for register `k` of the block (R144). -/
theorem peek_storeBlock_of_le (hm : Memory.wf s.mem = true) (h : s.i.toNat + x.val < 4096) {k : Reg}
    (hk : k.val ≤ x.val) : (s.storeBlock (x.val + 1)).peek (s.i.toNat + k.val) = s.getV k := by
  rw [State.peek_storeBlock hm (by omega), if_pos (by omega), Nat.add_sub_cancel_left]
  exact congrArg s.getV (Fin.ofNat_val_eq_self k)

theorem peek_storeBlock_of_outside (hm : Memory.wf s.mem = true) (h : s.i.toNat + x.val < 4096) {a : Nat}
    (ha : a < s.i.toNat ∨ s.i.toNat + x.val < a) : (s.storeBlock (x.val + 1)).peek a = s.peek a := by
  rw [State.peek_storeBlock hm (by omega), if_neg (by omega)]

theorem getV_loadBlock_of_le {k : Reg} (hk : k.val ≤ x.val) :
    (s.loadBlock (x.val + 1)).getV k = s.peek (s.i.toNat + k.val) := by
  rw [State.getV_loadBlock s (by omega), if_pos (by omega)]

theorem getV_loadBlock_of_gt {k : Reg} (hk : x.val < k.val) : (s.loadBlock (x.val + 1)).getV k = s.getV k := by
  rw [State.getV_loadBlock s (by omega), if_neg (by omega)]

end

/-- Settles O31: the three digits are the ones `State.peek_storeBcd` finds at I, I + 1 and I + 2. -/
theorem bcdStoresThreeDigitsAtI : Obligations.BcdStoresThreeDigitsAtI := by
  refine fun x s hm => ⟨exec_ldB_of_ge, fun h =>
    ⟨_, exec_ldB_of_lt h, onlyMem_storeBcd s _, ?hundreds, ?tens, ?ones, fun a ha => ?kept⟩⟩
  case hundreds => rw [State.peek_storeBcd hm h, if_neg (by omega), if_neg (by omega), if_pos rfl, toNat_hundreds]
  case tens => rw [State.peek_storeBcd hm h, if_neg (by omega), if_pos rfl, toNat_tens]
  case ones => rw [State.peek_storeBcd hm h, if_pos rfl, toNat_ones]
  case kept => rw [State.peek_storeBcd hm h, if_neg (by omega), if_neg (by omega), if_neg (by omega)]

/-- Settles O32: the fault, or the block store of x + 1 registers. -/
theorem storeRegistersWritesV0ThroughVxAtI : Obligations.StoreRegistersWritesV0ThroughVxAtI := fun _ s hm =>
  ⟨exec_storeRegs_of_ge, fun h => ⟨_, exec_storeRegs_of_lt h, onlyMem_storeBlock s _,
    fun _ => peek_storeBlock_of_le hm h, fun _ => peek_storeBlock_of_outside hm h⟩⟩

/-- Settles O33: the fault, or the block load of x + 1 registers. -/
theorem loadRegistersReadsV0ThroughVxFromI : Obligations.LoadRegistersReadsV0ThroughVxFromI := fun _ s =>
  ⟨exec_loadRegs_of_ge, fun h => ⟨_, exec_loadRegs_of_lt h, onlyV_loadBlock s _,
    fun _ => getV_loadBlock_of_le, fun _ => getV_loadBlock_of_gt⟩⟩

/-- Settles O34: the store leaves I alone, so the load reads the bytes the store wrote; what the registers hold in
between plays no part. -/
theorem blockLoadAfterBlockStoreRestoresRegisters : Obligations.BlockLoadAfterBlockStoreRestoresRegisters := by
  intro x s t v hm h hstore
  rw [exec_storeRegs_of_lt h] at hstore
  cases hstore
  have hi : (s.storeBlock (x.val + 1)).i = s.i := (congrArg State.i (s.storeBlock_frame _)).trans rfl
  refine ⟨_, exec_loadRegs_of_lt (by simpa only [hi] using h), fun k hk => ?_⟩
  calc (State.loadBlock { s.storeBlock (x.val + 1) with v := v } (x.val + 1)).getV k
      = (s.storeBlock (x.val + 1)).peek ((s.storeBlock (x.val + 1)).i.toNat + k.val) := getV_loadBlock_of_le hk
    _ = (s.storeBlock (x.val + 1)).peek (s.i.toNat + k.val) := by rw [hi]
    _ = s.getV k := peek_storeBlock_of_le hm h hk

end Sys2Proof.Proofs
end

section
/-! The display (spec R160-R164): CLS, what DRW leaves in every pixel and in VF, the second draw that undoes the first,
and that no other instruction writes the screen. -/

namespace Sys2Proof.Proofs
open Sys2Proof.Machine Sys2Proof.Claims

/-- Settles O36: the screen of CLS is the clear one (`State.pixel_clearScreen`), its only write. -/
theorem clearScreenTurnsEveryPixelOff : Obligations.ClearScreenTurnsEveryPixelOff := fun s =>
  ⟨_, rfl, rfl, s.pixel_clearScreen⟩

/-- Settles O50: of the effects only `clear` and `draw` touch the framebuffer. -/
theorem onlyClsAndDrwWriteTheScreen : Obligations.OnlyClsAndDrwWriteTheScreen := by
  intro i s t h hne
  cases execEffect_of_exec h with
  | clear => exact .inl rfl
  | draw x y n => exact .inr ⟨x, y, n, rfl⟩
  | regs hregs =>
    obtain ⟨⟨v, rfl⟩, -⟩ := hregs
    exact absurd rfl hne
  | skipIf => exact absurd (State.skipIf_fb _ _) hne
  | noop | fault | index | delay | sound | store | jump | jumpV0 | call | ret | keyWait => exact absurd rfl hne

/-- Two states with the same pixels have the same framebuffer. -/
theorem fb_ext {s t : State} (h : ∀ c r, s.pixel c r = t.pixel c r) : s.fb = t.fb :=
  Vector.ext fun r hr => Vector.ext fun c hc => h ⟨c, hc⟩ ⟨r, hr⟩

/-! ### DRW (R162): one equation per branch -/

/-- The state after DRW of a sprite inside memory: VF reset, then the sprite drawn from the origin read before. -/
def drawn (s : State) (x y : Reg) (n : BitVec 4) : State :=
  (s.setV vf 0x00#8).drawSprite s.i.toNat (originColumn (s.getV x)) (originRow (s.getV y)) n.toNat

section
variable {s : State} {x y : Reg} {n : BitVec 4}

theorem spriteInRange_iff_spriteInside : s.spriteInRange n.toNat = true ↔ SpriteInside s n := by
  rw [State.spriteInRange_iff, SpriteInside, ← BitVec.toNat_inj]
  rfl

theorem exec_drw_of_inside (h : SpriteInside s n) : exec (.drw x y n) s = .next (drawn s x y n) :=
  congrArg _ (if_pos (spriteInRange_iff_spriteInside.mpr h))

/-- A sprite that runs past memory faults before any write but the status (R193). -/
theorem exec_drw_of_not_inside (h : ¬ SpriteInside s n) :
    exec (.drw x y n) s = .next (faultState .memoryOutOfRange s) :=
  congrArg _ (if_neg (mt spriteInRange_iff_spriteInside.mp h))

/-! ### What a draw leaves -/

/-- The model's row-by-row account of where set bits land is the one over pixels. -/
theorem spriteLands_iff_lands {c : Fin 64} {r : Fin 32} :
    spriteLands (s.setV vf 0x00#8) s.i.toNat (originColumn (s.getV x)) (originRow (s.getV y)) n.toNat c r ↔
      Lands s x y n c r := by
  constructor
  · rintro ⟨k, hk, rfl, b, hb, hbit, rfl⟩
    exact ⟨k, b, hk, hb, hbit, rfl, rfl⟩
  · rintro ⟨k, b, hk, hb, hbit, hc, hr⟩
    exact ⟨k, hk, Fin.ext hr, b, hb, hbit, Fin.ext hc⟩

theorem drawn_frame : drawn s x y n = { s with v := (drawn s x y n).v, fb := (drawn s x y n).fb } := by
  obtain ⟨v, fb, hframe⟩ := (s.setV vf 0x00#8).drawSprite_frame s.i.toNat (originColumn (s.getV x))
    (originRow (s.getV y)) n.toNat
  rw [drawn, hframe]
  rfl

theorem keepsAllBut_drawn : KeepsAllBut 15 s (drawn s x y n) := fun _ hk =>
  (State.getV_drawSprite_ne _ _ _ _ _ hk).trans (State.getV_setV_ne s _ hk)

/-- The whole effect of a draw on the pixels and on VF, which starts from 0: the model's law for a sprite of at most 32
rows, of which DRW has at most 15. -/
theorem drawn_effect (s : State) (x y : Reg) (n : BitVec 4) :
    (∀ c r, (Lands s x y n c r → (drawn s x y n).pixel c r = !s.pixel c r) ∧
      (¬ Lands s x y n c r → (drawn s x y n).pixel c r = s.pixel c r)) ∧
    ((∃ c r, Lands s x y n c r ∧ s.pixel c r = true) → (drawn s x y n).getV vf = 0x01#8) ∧
    ((∀ c r, Lands s x y n c r → s.pixel c r = false) → (drawn s x y n).getV vf = 0x00#8) := by
  have hrows : n.toNat ≤ 32 := by omega
  have heffect := (s.setV vf 0x00#8).drawSprite_effect s.i.toNat (originColumn (s.getV x)) (originRow (s.getV y)) hrows
  simp only [spriteLands_iff_lands, State.getV_setV_same] at heffect
  exact heffect

theorem pixel_drawn_of_lands {c : Fin 64} {r : Fin 32} (h : Lands s x y n c r) :
    (drawn s x y n).pixel c r = !s.pixel c r :=
  ((drawn_effect s x y n).1 c r).1 h

theorem pixel_drawn_of_not_lands {c : Fin 64} {r : Fin 32} (h : ¬ Lands s x y n c r) :
    (drawn s x y n).pixel c r = s.pixel c r :=
  ((drawn_effect s x y n).1 c r).2 h

/-- VF is 1 after a draw exactly if a set bit landed on a pixel that was on. -/
theorem getV_vf_drawn_eq_one_iff :
    (drawn s x y n).getV vf = 0x01#8 ↔ ∃ c r, Lands s x y n c r ∧ s.pixel c r = true := by
  obtain ⟨-, hcollision, hclear⟩ := drawn_effect s x y n
  refine ⟨fun hvf => ?_, hcollision⟩
  by_contra hnone
  have hzero := hclear fun c r hl => Bool.eq_false_of_not_eq_true fun hp => hnone ⟨c, r, hl, hp⟩
  exact absurd (hvf.symm.trans hzero) (by decide)

end

/-- Settles O37: the fault, or the draw, whose effect is `drawn_effect`. -/
theorem drawInvertsExactlyTheSpritePixels : Obligations.DrawInvertsExactlyTheSpritePixels := fun x y n s =>
  ⟨exec_drw_of_not_inside, fun h => ⟨_, exec_drw_of_inside h, drawn_frame, keepsAllBut_drawn, drawn_effect s x y n⟩⟩

/-! ### The second draw (R164) -/

section
variable {s u : State} {x y : Reg} {n : BitVec 4}

/-- Where set bits land depends on I, the sprite's bytes and the origin alone. -/
theorem lands_congr (hi : u.i = s.i) (hbytes : ∀ k < n.toNat, u.peek (s.i.toNat + k) = s.peek (s.i.toNat + k))
    (hx : (u.getV x).toNat % 64 = (s.getV x).toNat % 64) (hy : (u.getV y).toNat % 32 = (s.getV y).toNat % 32)
    (c : Fin 64) (r : Fin 32) : Lands u x y n c r ↔ Lands s x y n c r := by
  unfold Lands
  rw [hi, hx, hy]
  refine exists_congr fun k => exists_congr fun b => and_congr_right fun hk => ?_
  rw [hbytes k hk]

variable (hfb : u.fb = (drawn s x y n).fb) (hlands : ∀ c r, Lands u x y n c r ↔ Lands s x y n c r)
include hfb hlands

/-- A pixel inverted twice, or not at all, is as it was. -/
theorem fb_drawn_drawn : (drawn u x y n).fb = s.fb := by
  refine fb_ext fun c r => ?_
  have hpixel := State.pixel_congr hfb c r
  by_cases hl : Lands s x y n c r
  · rw [pixel_drawn_of_lands ((hlands c r).mpr hl), hpixel, pixel_drawn_of_lands hl, Bool.not_not]
  · rw [pixel_drawn_of_not_lands (mt (hlands c r).mp hl), hpixel, pixel_drawn_of_not_lands hl]

/-- The second draw finds on exactly those of its pixels that the first found off. -/
theorem getV_vf_drawn_drawn_eq_one_iff :
    (drawn u x y n).getV vf = 0x01#8 ↔ ∃ c r, Lands s x y n c r ∧ s.pixel c r = false := by
  rw [getV_vf_drawn_eq_one_iff]
  refine exists_congr fun c => exists_congr fun r => ?_
  rw [hlands]
  refine and_congr_right fun hl => ?_
  rw [State.pixel_congr hfb, pixel_drawn_of_lands hl, Bool.not_eq_true']

end

/-- Settles O38: the two draws land on the same pixels (`lands_congr`), each of them inverted twice. -/
theorem drawingTwiceRestoresTheScreen : Obligations.DrawingTwiceRestoresTheScreen := by
  intro x y n s t u h hdraw hfb hi hbytes hx hy
  rw [exec_drw_of_inside h] at hdraw
  cases hdraw
  have hlands := lands_congr (x := x) (y := y) hi hbytes hx hy
  have hinside : SpriteInside u n := by rwa [SpriteInside, hi]
  exact ⟨_, exec_drw_of_inside hinside, fb_drawn_drawn hfb hlands, getV_vf_drawn_drawn_eq_one_iff hfb hlands⟩

end Sys2Proof.Proofs
end

section
/-! Keypad and timers (spec R170-R178): the two key skips, the key wait, the timer instructions, and the countdown under
ticks and at the boundaries between instructions. -/

namespace Sys2Proof.Proofs
open Sys2Proof.Machine Sys2Proof.Claims

/-! ### The keypad (R171, R172, R174): one equation per branch -/

section
variable {s : State} {x : Reg}

theorem isKeyIndex_iff {b : Byte} : isKeyIndex b = true ↔ b.toNat ≤ 0x0F := decide_eq_true_iff

theorem keyDown_of_toNat {b : Byte} {k : Fin 16} (h : b.toNat = k.val) : s.keyDown b = s.keys[k] := by
  simp only [State.keyDown, h, Fin.ofNat_val_eq_self]

/-- A value that names no key faults, its only write the status (R194). -/
theorem exec_skp_of_not_key (h : 0x0F < (s.getV x).toNat) :
    exec (.skp x) s = .next (faultState .keyIndexOutOfRange s) :=
  congrArg _ (if_neg (mt isKeyIndex_iff.mp (by omega)))

theorem exec_sknp_of_not_key (h : 0x0F < (s.getV x).toNat) :
    exec (.sknp x) s = .next (faultState .keyIndexOutOfRange s) :=
  congrArg _ (if_neg (mt isKeyIndex_iff.mp (by omega)))

theorem exec_skp_of_key {k : Fin 16} (h : (s.getV x).toNat = k.val) :
    exec (.skp x) s = .next (s.skipIf s.keys[k]) := by
  rw [← keyDown_of_toNat h]
  exact congrArg _ (if_pos (isKeyIndex_iff.mpr (by omega)))

theorem exec_sknp_of_key {k : Fin 16} (h : (s.getV x).toNat = k.val) :
    exec (.sknp x) s = .next (s.skipIf !s.keys[k]) := by
  rw [← keyDown_of_toNat h]
  exact congrArg _ (if_pos (isKeyIndex_iff.mpr (by omega)))

theorem firstKey_eq_some_iff {keys : Vector Bool 16} {k : Fin 16} :
    firstKey keys = some k ↔ keys[k] = true ∧ ∀ j < k, keys[j] = false := by
  rw [firstKey, ← Fin.find?_eq_find?_finRange, Fin.find?_eq_some_iff]

theorem firstKey_eq_none_iff {keys : Vector Bool 16} : firstKey keys = none ↔ ∀ k : Fin 16, keys[k] = false := by
  rw [firstKey, ← Fin.find?_eq_find?_finRange, Fin.find?_eq_none_iff]

theorem exec_ldVxK_of_firstKey {k : Fin 16} (h : firstKey s.keys = some k) :
    exec (.ldVxK x) s = .next (s.setV x (trunc8 k.val)) := by
  change execLdVxK x s = _
  rw [execLdVxK, h]

/-- With no key down PC goes back to the instruction's own address. -/
theorem exec_ldVxK_of_no_key (h : firstKey s.keys = none) :
    exec (.ldVxK x) s = .next (s.setPc (s.pc - 2#16)) := by
  change execLdVxK x s = _
  rw [execLdVxK, h]

end

/-- Settles O39: the fault, or `skipIf` of the level of the key. -/
theorem keySkipsFollowTheKeyLevel : Obligations.KeySkipsFollowTheKeyLevel := by
  refine fun x s => ⟨fun h => ⟨exec_skp_of_not_key h, exec_sknp_of_not_key h⟩, fun k h =>
    ⟨⟨_, exec_skp_of_key h, onlyPc_skipIf s _, toNat_pc_skipIf s _⟩,
      ⟨_, exec_sknp_of_key h, onlyPc_skipIf s _, ?up⟩⟩⟩
  case up =>
    rw [toNat_pc_skipIf]
    cases s.keys[k] <;> rfl

/-- Settles O40: which branch of the wait is taken is `firstKey`, the lowest key that is down. -/
theorem keyWaitTakesTheLowestKeyOrRewinds : Obligations.KeyWaitTakesTheLowestKeyOrRewinds := by
  refine fun x s => ⟨fun k hk hlow =>
    ⟨_, exec_ldVxK_of_firstKey (firstKey_eq_some_iff.mpr ⟨hk, hlow⟩), onlyV_setV s x _, keepsAllBut_setV s x _, ?key⟩,
    fun h => exec_ldVxK_of_no_key (firstKey_eq_none_iff.mpr h)⟩
  case key =>
    rw [State.getV_setV_same, toNat_trunc8, Nat.mod_eq_of_lt (by omega)]

/-! ### The timers (R173, R175-R178, R207) -/

theorem soundOn_iff (s : State) : s.soundOn = true ↔ 0 < s.st.toNat := by
  rw [State.soundOn, bne_iff_ne]
  exact ⟨toNat_pos_of_ne, fun hpos hzero => by simp [hzero] at hpos⟩

/-- Settles O41: each is one write; the sound port is `soundOn_iff`. -/
theorem timerInstructionsMoveOneByte : Obligations.TimerInstructionsMoveOneByte := fun x s =>
  ⟨⟨_, rfl, onlyV_setV s x _, keepsAllBut_setV s x _, State.getV_setV_same s x _⟩, rfl, rfl, soundOn_iff s⟩

/-- A timer that a tick does not reach keeps its value. -/
theorem countDown_false (t : Byte) : countDown t false = t := BitVec.eq_of_toNat_eq (toNat_countDown t false)

/-- One tick leaves a timer as it was or one lower. -/
theorem countDown_eq_or_succ (t : Byte) (reached : Bool) :
    countDown t reached = t ∨ (countDown t reached).toNat + 1 = t.toNat := by
  by_cases ht : t = 0x00#8
  · exact .inl (if_pos ht)
  · have hpos := toNat_pos_of_ne ht
    cases reached with
    | false => exact .inl (countDown_false t)
    | true =>
      right
      rw [toNat_countDown, if_pos rfl]
      omega

/-- `n` ticks take `n` from a timer that each of them reaches, and nothing from one that they do not. -/
theorem toNat_ticks_timer {d e reached : Bool} (timer : State → Byte)
    (htimer : ∀ s, timer (s.tick d e) = countDown (timer s) reached) (n : Nat) (s : State) :
    (timer (ticks d e n s)).toNat = if reached then (timer s).toNat - n else (timer s).toNat := by
  induction n with
  | zero => cases reached <;> rfl
  | succ n ih =>
    rw [ticks, htimer, toNat_countDown, ih]
    split <;> omega

/-- Ticks write the timers only. -/
theorem ticks_frame (d e : Bool) (n : Nat) (s : State) :
    ticks d e n s = { s with dt := (ticks d e n s).dt, st := (ticks d e n s).st } := by
  induction n with
  | zero => rfl
  | succ n ih => exact (congrArg (State.tick · d e) ih).trans rfl

/-- Settles O42: the countdown of each timer, and the frame. -/
theorem ticksCountEachTimerDownToZero : Obligations.TicksCountEachTimerDownToZero := fun n d e s =>
  ⟨toNat_ticks_timer State.dt (fun _ => rfl) n s, toNat_ticks_timer State.st (fun _ => rfl) n s, ticks_frame d e n s⟩

/-- Settles O43: each timer is counted down at most once. -/
theorem boundaryLowersEachTimerAtMostOnce : Obligations.BoundaryLowersEachTimerAtMostOnce := fun s =>
  ⟨countDown_eq_or_succ s.dt _, countDown_eq_or_succ s.st _, rfl⟩

/-! ### The gap before a tick (R178) -/

/-- A timer counts down at the boundary at which its gap has run out and at no other, a free gap following it. -/
structure CountsDownAfterGap (timer : State → Byte) (gap : State → Nat) : Prop where
  timer_boundary : ∀ s : State, timer s.boundary = countDown (timer s) (gap s == 0)
  gap_boundary : ∀ s : State, ∃ free, gap s.boundary = nextGap (gap s) free

theorem dt_countsDownAfterGap : CountsDownAfterGap State.dt State.dtGap := ⟨State.boundary_dt, fun _ => ⟨_, rfl⟩⟩

theorem st_countsDownAfterGap : CountsDownAfterGap State.st State.stGap := ⟨State.boundary_st, fun _ => ⟨_, rfl⟩⟩

section
variable {timer : State → Byte} {gap : State → Nat} (h : CountsDownAfterGap timer gap) {s : State}
include h

/-- While a timer's gap runs, boundaries shorten the gap and leave the timer. -/
theorem boundaries_within_gap {n : Nat} (hn : n ≤ gap s) :
    timer (boundaries n s) = timer s ∧ gap (boundaries n s) = gap s - n := by
  induction n with
  | zero => exact ⟨rfl, rfl⟩
  | succ n ih =>
    obtain ⟨htimer, hgap⟩ := ih (Nat.le_of_succ_le hn)
    obtain ⟨m, hm⟩ : ∃ m, gap (boundaries n s) = m + 1 := Nat.exists_eq_add_one.mpr (by omega)
    obtain ⟨free, hnext⟩ := h.gap_boundary (boundaries n s)
    rw [boundaries, h.timer_boundary, hnext, hm]
    exact ⟨(countDown_false _).trans htimer, show m = gap s - (n + 1) by omega⟩

/-- The boundary at which the gap has run out lowers the timer. -/
theorem toNat_boundaries_after_gap : (timer (boundaries (gap s + 1) s)).toNat = (timer s).toNat - 1 := by
  obtain ⟨htimer, hgap⟩ := boundaries_within_gap h (le_refl (gap s))
  rw [boundaries, h.timer_boundary, hgap, htimer, Nat.sub_self]
  exact toNat_countDown (timer s) true

end

/-- Settles O44: `boundaries_within_gap` and the boundary after it, for each timer with its own gap. -/
theorem everyTimerIsReachedAfterItsGap : Obligations.EveryTimerIsReachedAfterItsGap := fun _ =>
  ⟨fun _ hn => (boundaries_within_gap dt_countsDownAfterGap hn).1, toNat_boundaries_after_gap dt_countsDownAfterGap,
    fun _ hn => (boundaries_within_gap st_countsDownAfterGap hn).1, toNat_boundaries_after_gap st_countsDownAfterGap⟩

end Sys2Proof.Proofs
end

section
/-! The inputs of a step, the key levels and the random byte, are read by their own instructions alone (spec R132, R170):
every other operation commutes with a write of them. -/

namespace Sys2Proof.Proofs
open Sys2Proof.Machine Sys2Proof.Claims

/-- Other inputs for the step. -/
def withInputs (keys : Vector Bool 16) (rnd : Byte) (s : State) : State := { s with keys := keys, rnd := rnd }

/-- The three instructions that read the key levels (R171, R172, R174). -/
def ReadsKeys (i : Instr) : Prop := ∃ x, i = .skp x ∨ i = .sknp x ∨ i = .ldVxK x

/-- The one instruction that reads the random byte (R132). -/
def ReadsRandom (i : Instr) : Prop := ∃ x nn, i = .rnd x nn

section
variable (s : State) (ks : Vector Bool 16) (b : Byte)

/-! ### The shared operations commute with a write of the inputs -/

theorem skipIf_withInputs (c : Bool) : (withInputs ks b s).skipIf c = withInputs ks b (s.skipIf c) := by
  cases c <;> rfl

theorem poke_withInputs (a : Nat) (v : Byte) : (withInputs ks b s).poke a v = withInputs ks b (s.poke a v) := by
  rw [State.poke_eq, State.poke_eq]
  rfl

theorem storeBcd_withInputs (v : Byte) : (withInputs ks b s).storeBcd v = withInputs ks b (s.storeBcd v) := by
  simp only [State.storeBcd, poke_withInputs]
  rfl

theorem storeBlock_withInputs (n : Nat) : (withInputs ks b s).storeBlock n = withInputs ks b (s.storeBlock n) :=
  forUpTo_commute (g := withInputs ks b) fun _ t => poke_withInputs t ks b _ _

theorem loadBlock_withInputs (n : Nat) : (withInputs ks b s).loadBlock n = withInputs ks b (s.loadBlock n) :=
  forUpTo_commute (g := withInputs ks b) fun _ _ => rfl

theorem xorPixel_withInputs (c : Fin 64) (r : Fin 32) :
    (withInputs ks b s).xorPixel c r = withInputs ks b (s.xorPixel c r) := by
  rw [State.xorPixel_eq, State.xorPixel_eq]
  rfl

theorem drawRow_withInputs (x0 : Nat) (r : Fin 32) (row : Byte) :
    (withInputs ks b s).drawRow x0 r row = withInputs ks b (s.drawRow x0 r row) := by
  refine forUpTo_commute (g := withInputs ks b) fun k t => ?_
  split
  · exact xorPixel_withInputs t ks b _ r
  · rfl

theorem drawSprite_withInputs (a x0 y0 n : Nat) :
    (withInputs ks b s).drawSprite a x0 y0 n = withInputs ks b (s.drawSprite a x0 y0 n) :=
  forUpTo_commute (g := withInputs ks b) fun _ t => drawRow_withInputs t ks b x0 _ _

/-! ### The instructions -/

/-- A choice whose condition ignores the inputs commutes with a write of them when both of its branches do. -/
theorem next_ite_withInputs {c : Prop} [Decidable c] {t e t' e' : State} (ht : t' = withInputs ks b t)
    (he : e' = withInputs ks b e) :
    (.next (if c then t' else e') : Host.Outcome State Fault Refusal) = .next (withInputs ks b (if c then t else e)) := by
  rw [ht, he, apply_ite (withInputs ks b)]

theorem exec_ret_withInputs {t : State} (h : exec .ret s = .next t) :
    exec .ret (withInputs ks b s) = .next (withInputs ks b t) := by
  by_cases h0 : s.sp.val = 0
  · cases (exec_ret_of_empty h0).symm.trans h
    exact exec_ret_of_empty h0
  · have hk : s.sp.val = (⟨s.sp.val - 1, by omega⟩ : Fin 16).val + 1 := by simp only; omega
    cases (exec_ret_of_succ hk).symm.trans h
    exact exec_ret_of_succ (s := withInputs ks b s) hk

theorem exec_call_withInputs {nnn : Addr12} {t : State} (h : exec (.call nnn) s = .next t) :
    exec (.call nnn) (withInputs ks b s) = .next (withInputs ks b t) := by
  by_cases hsp : s.sp.val < 16
  · have hk : s.sp.val = (⟨s.sp.val, hsp⟩ : Fin 16).val := rfl
    cases (exec_call_of_lt nnn hk).symm.trans h
    exact exec_call_of_lt (s := withInputs ks b s) nnn hk
  · have hfull : s.sp.val = 16 := by omega
    cases (exec_call_of_full nnn hfull).symm.trans h
    exact exec_call_of_full nnn hfull

/-- The key wait reads the key levels, and not the random byte. -/
theorem exec_ldVxK_withInputs {x : Reg} {t : State} (h : exec (.ldVxK x) s = .next t) :
    exec (.ldVxK x) (withInputs s.keys b s) = .next (withInputs s.keys b t) := by
  cases hk : firstKey s.keys with
  | none =>
    cases (exec_ldVxK_of_no_key hk).symm.trans h
    exact exec_ldVxK_of_no_key hk
  | some k =>
    cases (exec_ldVxK_of_firstKey hk).symm.trans h
    exact exec_ldVxK_of_firstKey hk

variable {s ks b}

/-- With other inputs an instruction does the same and leaves them there, if the input it reads is the old one. -/
theorem exec_withInputs {t : State} : ∀ {i : Instr}, exec i s = .next t → (ReadsKeys i → ks = s.keys) →
    (ReadsRandom i → b = s.rnd) → exec i (withInputs ks b s) = .next (withInputs ks b t)
  | .skp x, rfl, hkeys, _ => by
    cases hkeys ⟨x, .inl rfl⟩
    exact next_ite_withInputs s.keys b (skipIf_withInputs s s.keys b _) rfl
  | .sknp x, rfl, hkeys, _ => by
    cases hkeys ⟨x, .inr (.inl rfl)⟩
    exact next_ite_withInputs s.keys b (skipIf_withInputs s s.keys b _) rfl
  | .ldVxK x, h, hkeys, _ => by
    cases hkeys ⟨x, .inr (.inr rfl)⟩
    exact exec_ldVxK_withInputs s b h
  | .rnd x nn, rfl, _, hrnd => by
    cases hrnd ⟨x, nn, rfl⟩
    rfl
  | .ret, h, _, _ => exec_ret_withInputs s ks b h
  | .call _, h, _, _ => exec_call_withInputs s ks b h
  | .seImm _ _, rfl, _, _ | .sneImm _ _, rfl, _, _ | .seReg _ _, rfl, _, _ | .sneReg _ _, rfl, _, _ =>
    congrArg _ (skipIf_withInputs s ks b _)
  | .drw _ _ _, rfl, _, _ =>
    next_ite_withInputs ks b (drawSprite_withInputs (s.setV vf 0x00#8) ks b _ _ _ _) rfl
  | .ldB _, rfl, _, _ => next_ite_withInputs ks b rfl (storeBcd_withInputs s ks b _)
  | .storeRegs _, rfl, _, _ => next_ite_withInputs ks b rfl (storeBlock_withInputs s ks b _)
  | .loadRegs _, rfl, _, _ => next_ite_withInputs ks b rfl (loadBlock_withInputs s ks b _)
  | .cls, rfl, _, _ | .jp _, rfl, _, _ | .jpV0 _, rfl, _, _ | .sys _, rfl, _, _ => rfl
  | .ldImm _ _, rfl, _, _ | .addImm _ _, rfl, _, _ | .ldReg _ _, rfl, _, _ => rfl
  | .orReg _ _, rfl, _, _ | .andReg _ _, rfl, _, _ | .xorReg _ _, rfl, _, _ => rfl
  | .addReg _ _, rfl, _, _ | .subReg _ _, rfl, _, _ | .subnReg _ _, rfl, _, _ => rfl
  | .shr _ _, rfl, _, _ | .shl _ _, rfl, _, _ => rfl
  | .ldI _, rfl, _, _ | .addI _, rfl, _, _ | .ldF _, rfl, _, _ => rfl
  | .ldVxDt _, rfl, _, _ | .ldDtVx _, rfl, _, _ | .ldStVx _, rfl, _, _ => rfl

end

/-- No instruction writes the inputs of its step. -/
theorem exec_keeps_inputs {i : Instr} {s t : State} (h : exec i s = .next t) : t.keys = s.keys ∧ t.rnd = s.rnd := by
  obtain ⟨-, -, -, -, -, -, hkeys, hrnd, -⟩ := specialRegistersAreWrittenByTheirInstructions i s t h
  exact ⟨hkeys, hrnd⟩

/-- Settles O56: `exec_withInputs`, with one of the two inputs the old one, which `t` still holds. -/
theorem inputsAreReadOnlyByTheirInstructions : Obligations.InputsAreReadOnlyByTheirInstructions := by
  intro i s t h
  obtain ⟨hkeys, hrnd⟩ := exec_keeps_inputs h
  refine ⟨fun ks hi => ?keys, fun b hi => ?random⟩
  case keys =>
    have hnot : ¬ ReadsKeys i := by simpa [ReadsKeys] using hi
    change exec i (withInputs ks s.rnd s) = .next (withInputs ks t.rnd t)
    rw [hrnd]
    exact exec_withInputs h (absurd · hnot) fun _ => rfl
  case random =>
    have hnot : ¬ ReadsRandom i := by simpa [ReadsRandom] using hi
    change exec i (withInputs s.keys b s) = .next (withInputs t.keys b t)
    rw [hkeys]
    exact exec_withInputs h (fun _ => rfl) (absurd · hnot)

end Sys2Proof.Proofs
end

section
/-! The refusal of an ambiguous word (spec R75, R195): a word is ambiguous exactly when the decoder refuses it, and the
address it records is the word's own. -/

namespace Sys2Proof.Proofs
open Sys2Proof.Machine Sys2Proof.Claims

/-- Every word of the three bands is refused, and no other word is (R75). -/
theorem isAmbiguousWord_iff_decodeWord_refuse {op : Word} :
    isAmbiguousWord op = true ↔ ∃ b, decodeWord .refuse op = .ambiguous b := by
  refine ⟨fun h => ?refused, fun ⟨_, h⟩ => isAmbiguousWord_of_decodeWord h⟩
  case refused =>
    simp only [isAmbiguousWord, Bool.or_eq_true, Bool.and_eq_true, beq_iff_eq, bne_iff_ne] at h
    obtain ⟨⟨hf, hx⟩, hnn | hnn⟩ | ⟨hf | hf, hn⟩ := h
    · exact ⟨.amb0, decodeWord_amb0_cls hf hx hnn⟩
    · exact ⟨.amb0, decodeWord_amb0_ret hf hx hnn⟩
    · exact ⟨.amb5, decodeWord_amb5 hf hn⟩
    · exact ⟨.amb9, decodeWord_amb9 hf hn⟩

/-- After the advance, PC less 2 is the address of the fetched word (R92, R93), at every PC. -/
theorem pc_advance_sub_two (s : State) (op : Word) : (s.advance op).pc - 2#16 = s.pc := by
  rw [State.advance_pc, trunc16]
  bv_omega

/-- The refusal after the advance records the fetched word and its address (R195). -/
theorem refuseWord_advance (s : State) (op : Word) : (s.advance op).refuseWord =
    { s.advance op with status := .refused .ambiguousEncoding s.pc op } := by
  rw [State.refuseWord, pc_advance_sub_two]
  rfl

/-- Settles O12: the step is `stepWith_of_fetch`, and what it executes is the refusal. -/
theorem ambiguousWordHaltsRefused : Obligations.AmbiguousWordHaltsRefused := by
  intro s hrun hpc hamb
  obtain ⟨b, hdec⟩ := isAmbiguousWord_iff_decodeWord_refuse.mp hamb
  have hstep : step s = .next (s.boundary.advance (wordAtPc s)).refuseWord := by
    rw [step, stepWith_of_fetch _ hrun hpc, ambiguousReading, hdec]
    rfl
  exact ⟨_, hstep, toNat_pc_advance (s := s.boundary) hpc (wordAtPc s),
    refuseWord_advance s.boundary (wordAtPc s)⟩

end Sys2Proof.Proofs
end

section
/-! What a load leaves (spec R38, R199, R220) and what the framebuffer port shows (spec R206). -/

namespace Sys2Proof.Proofs
open Sys2Proof.Machine

/-! ### The load (R220) -/

/-- A ROM that fits leaves memory in canonical form, whatever the font. -/
theorem wf_loadedMemory (font : Vector Byte 80) {rom : List Byte} (h : rom.length ≤ romMax) :
    Memory.wf (loadedMemory font rom) = true := by
  have hfont : fontBase + font.toList.length ≤ memSize := by simp [fontBase, memSize]
  have hrom : progBase + rom.length ≤ memSize := Nat.add_le_add_left h progBase
  exact Memory.wf_writeAll hrom (Memory.wf_writeAll hfont Memory.wf_nil)

/-- A load succeeds only with a ROM that fits, and then leaves the state after reset with the loaded memory and the
model's own fields as they were (log 13). -/
theorem loadWith_eq_ok {font : Vector Byte 80} {rom : List Byte} {s t : State}
    (h : State.loadWith font rom s = .ok t) : rom.length ≤ romMax ∧
      t = { State.reset with
        mem := loadedMemory font rom
        keys := s.keys, rnd := s.rnd, now := s.now, dtGap := s.dtGap, stGap := s.stGap } := by
  unfold State.loadWith at h
  split at h
  case isTrue => cases h
  case isFalse hfits => exact ⟨Nat.le_of_not_lt hfits, (Except.ok.inj h).symm⟩

/-- Settles O47: memory from `wf_loadedMemory`, every other part of the invariant from the state after reset. -/
theorem loadLeavesALegalRunningState : Obligations.LoadLeavesALegalRunningState := by
  intro font rom s t h
  obtain ⟨hfits, rfl⟩ := loadWith_eq_ok h
  obtain ⟨-, hpc, hstack, hstatus⟩ := invariantHoldsAtReset
  exact ⟨⟨wf_loadedMemory font hfits, hpc, hstack, hstatus⟩, rfl⟩

/-! ### The framebuffer port (R206) -/

/-- The port is the rows end to end, every row 64 bytes. -/
theorem fbPort_eq_flatMap (s : State) : s.fbPort = (s.fb.flatMap (·.map pixelByte)).toList := by
  simp [State.fbPort, Vector.flatMap, Vector.toList]

/-- Settles O49: index `r * 64 + c` of the rows end to end is column `c` of row `r`. -/
theorem framebufferPortIsRowMajor : Obligations.FramebufferPortIsRowMajor := by
  intro s
  rw [fbPort_eq_flatMap]
  refine ⟨Vector.length_toList, fun c r => ?_⟩
  have hrow : (r.val * 64 + c.val) / 64 = r.val := by omega
  have hcol : (r.val * 64 + c.val) % 64 = c.val := by omega
  have hlt : r.val * 64 + c.val < 32 * 64 := by omega
  rw [Vector.getElem?_toList, Vector.getElem?_eq_getElem hlt, Vector.getElem_flatMap]
  simp only [hrow, hcol, Vector.getElem_map]
  rfl

end Sys2Proof.Proofs
end

section
/-! The two edges of the load: a ROM over the limit (spec R221) and the ROM of no bytes (spec R222). -/

namespace Sys2Proof.Proofs
open Sys2Proof.Machine

/-- Settles O46: over the limit the load takes the branch of the refusal. -/
theorem oversizedRomIsRefused : Obligations.OversizedRomIsRefused := by
  intro font rom s hlong
  have hover : romMax < rom.length := hlong
  exact if_pos hover

/-- Writing into the unlisted memory what its addresses already read as lists nothing. -/
theorem writeAll_nil_of_background {vs : List Byte} {a : Nat}
    (h : ∀ k (hk : k < vs.length), vs[k] = Memory.background (a + k)) : Memory.writeAll [] a vs = [] := by
  induction vs generalizing a with
  | nil => rfl
  | cons v vs ih =>
    have hhead : v = Memory.background a := h 0 (Nat.zero_lt_succ _)
    have hwrite : Memory.write [] a v = [] := if_pos hhead
    have htail : ∀ k (hk : k < vs.length), vs[k] = Memory.background (a + 1 + k) := fun k hk => by
      rw [Nat.add_right_comm]
      exact h (k + 1) (Nat.succ_lt_succ hk)
    rw [Memory.writeAll, hwrite, ih htail]

/-- Each byte of the default font is what its address reads as when unlisted (R38, R60). -/
theorem getElem_defaultFont {k : Nat} (hk : k < defaultFont.toList.length) :
    defaultFont.toList[k] = Memory.background (fontBase + k) := by
  have hbase : ¬ fontBase + k < fontBase := by omega
  rw [Memory.background, if_neg hbase, Nat.add_sub_cancel_left]
  exact (List.getD_eq_getElem _ _ hk).symm

/-- The load of no bytes with the default font lists nothing: memory is the background. -/
theorem loadedMemory_defaultFont_nil : loadedMemory defaultFont [] = [] := by
  rw [loadedMemory, Memory.writeAll]
  exact writeAll_nil_of_background fun _ => getElem_defaultFont

/-- Settles O48: memory from `loadedMemory_defaultFont_nil`; every other field is the state after reset's own. -/
theorem resetIsTheLoadOfAnEmptyRom : Obligations.ResetIsTheLoadOfAnEmptyRom := by
  have hfits : ¬ romMax < ([] : List Byte).length := Nat.not_lt_zero _
  rw [Obligations.ResetIsTheLoadOfAnEmptyRom, State.load, State.loadWith, if_neg hfits, loadedMemory_defaultFont_nil]
  rfl

end Sys2Proof.Proofs
end
